-- ==== Sys2Proof/Word.lean ====
section
/-! DEFINITION. The one datum type of the core, the FixedPoint113 value (rules R9 to R12, R20 to R23):
four 28-bit limbs and a 1-bit top limb, its integer `V`, its rational `val`, its bits and its named constants.
Nothing here computes an operation of the core. -/

namespace Sys2Proof

/-- A limb `w0..w3`: an unsigned 28-bit field (R9, R20). -/
abbrev Limb := BitVec 28

/-- A one-bit port or field: `w4`, `cin`, `c` (R9, R24, R61). -/
abbrev Bit := BitVec 1

/-- One word of the limb vector of LOADV (R41). -/
abbrev VecWord := BitVec 32

/-- The scalar output `s`, and the binary64 pattern `f` (R61, R63). -/
abbrev Scalar := BitVec 64

/-- The FixedPoint113 value (R9, R20). The invariants of R21 hold by construction: each field is exactly as wide
as its limb. -/
structure Value where
  w0 : Limb
  w1 : Limb
  w2 : Limb
  w3 : Limb
  w4 : Bit
  deriving DecidableEq, Repr

/-- `V(x)`, the integer of a value (R9): 0 ≤ V(x) < 2^113. -/
def Value.V (x : Value) : Nat :=
  x.w4.toNat * 2 ^ 112 + x.w3.toNat * 2 ^ 84 + x.w2.toNat * 2 ^ 56 + x.w1.toNat * 2 ^ 28 + x.w0.toNat

/-- `mk(v)` (R10): the value whose integer is `v`, for 0 ≤ v < 2^113. -/
def Value.ofV (v : Nat) : Value where
  w0 := BitVec.ofNat 28 v
  w1 := BitVec.ofNat 28 (v / 2 ^ 28)
  w2 := BitVec.ofNat 28 (v / 2 ^ 56)
  w3 := BitVec.ofNat 28 (v / 2 ^ 84)
  w4 := BitVec.ofNat 1 (v / 2 ^ 112)

/-- `val(x) = V(x) / 2^112`, the number a value stands for (R9): a rational in [0, 2). -/
def Value.val (x : Value) : ℚ := (x.V : ℚ) / 2 ^ 112

/-- `x.bit[i]`, bit `i` of `V(x)` (R11). -/
def Value.bit (x : Value) (i : Nat) : Bool := x.V.testBit i

/-- `Msb(x) = x.w4` (R23). -/
def Value.msb (x : Value) : Bit := x.w4

/-- `Zero`, all limbs 0 (R12, R22). -/
def Value.zero : Value := ⟨0, 0, 0, 0, 0⟩

/-- `One`, `w4 = 1` and the rest 0: the number 1.0 (R12, R22). -/
def Value.one : Value := ⟨0, 0, 0, 0, 1⟩

/-- `Ulp`, the unit in the last position: `w0 = 1` and the rest 0 (R12). -/
def Value.ulp : Value := ⟨1, 0, 0, 0, 0⟩

/-- `Half = mk(2^111)`: the number 0.5 (R12). -/
def Value.half : Value := ⟨0, 0, 0, 0x8000000, 0⟩

/-- `Max = mk(2^113 − 1)`: all bits 1 (R12). -/
def Value.max : Value := ⟨0xFFFFFFF, 0xFFFFFFF, 0xFFFFFFF, 0xFFFFFFF, 1⟩

end Sys2Proof
end

