-- ==== Sys2Proof/Machine/Flags.lean ====
section
/-! DEFINITION. Every computation of the one-bit output `c` (R24): the carry of ADD, AINV and MUL out of the raw top
position, and the truth value of a predicate. The borrow of SUB is the predicate LT (R124, R259), and the flag of MSB
is `w4` itself (R106). -/

namespace Sys2Proof.Machine

/-- Bit 0 of the raw top position, the new `w4` (R121, R141). -/
def topBit (raw : Nat) : Bit := BitVec.ofNat 1 raw

/-- Bit 1 of the raw top position, the carry-out (R121, R141). -/
def carryBit (raw : Nat) : Bit := BitVec.ofNat 1 (raw / 2)

/-- A predicate on the output `c`: 1 for true (R24). -/
def flagOf (p : Bool) : Bit := if p then 1 else 0

end Sys2Proof.Machine
end

