-- ==== Sys2Proof/Config.lean ====
section
/-! DEFINITION. The parameters the document fixes (R8), as plain constants and never as arguments (R7, R8), and the
one free value of the model: what the output ports carry where a response defines nothing. -/

namespace Sys2Proof.Config

/-- `NUM_BITS`, the width of a value in bits (R8). -/
abbrev numBits : Nat := 113

/-- `FRAC_BITS`, the fractional bits of Q1.112 (R8). -/
abbrev fracBits : Nat := 112

/-- `LIMB_BITS`, the width of limbs `w0..w3` (R8). -/
abbrev limbBits : Nat := 28

/-- `DIV_ITER`, the iterations of the divider loop (R8). -/
abbrev divIter : Nat := 113

/-- `F64_ITER`, the iterations of the from-double loop (R8). -/
abbrev f64Iter : Nat := 113

/-- FREE VALUE (log entry 3). What the 180 bits of the output ports hold in the places that no response defines
(R64, R265), and everywhere before the first response (R33, R250). It is applied to the number of responses given so
far, so that nothing relates it from one response to the next. Nothing can be proved of it. -/
opaque undriven : Nat → BitVec 180

end Sys2Proof.Config
end

