-- ==== Sys2Proof/Syntax.lean ====
section
/-! DEFINITION. Commands as the host presents them on the input ports (`Command`, R61), and commands as the core
understands them: one constructor of `Instr` for each of the 26 operations of R67, holding exactly the operands its
format reads (R60, R65). -/

namespace Sys2Proof

/-- The content of the input ports of one command (R61). `len` is `vec.length` (R41, R61; log entry 11). Every port
holds something, read or not (R61, R68). -/
structure Command where
  op  : BitVec 5
  a   : Value
  b   : Value
  n   : BitVec 32
  cin : Bit
  f   : Scalar
  vec : List VecWord
  deriving DecidableEq, Repr

/-- The formats of R65: each names the ports a command reads. -/
inductive Format where
  | a | ab | ac | an | n | f | v
  deriving DecidableEq, Repr

/-- One operation with the operands its format reads (R60, R67). The operand `n` is the signed integer that the port
`n` carries (R71); its range is checked in WellFormed (log entry 12). -/
inductive Instr where
  /-- R101 -/
  | load (a : Value)
  /-- R102 -/
  | loadv (n : Int) (vec : List VecWord)
  /-- R103 -/
  | fromint (n : Int)
  /-- R104 -/
  | fromf64 (f : Scalar)
  /-- R106 -/
  | msb (a : Value)
  /-- R107 -/
  | low64 (a : Value)
  /-- R121 -/
  | add (a b : Value)
  /-- R124 -/
  | sub (a b : Value)
  /-- R123 -/
  | ainv (a : Value)
  /-- R122 -/
  | not (a : Value)
  /-- R141 -/
  | mul (a b : Value)
  /-- R151 -/
  | div (a b : Value)
  /-- R171 -/
  | ssl (a : Value) (cin : Bit)
  /-- R172 -/
  | ssr (a : Value) (cin : Bit)
  /-- R174 -/
  | lsl (a : Value) (n : Int)
  /-- R175 -/
  | lsr (a : Value) (n : Int)
  /-- R176 -/
  | asr (a : Value) (n : Int)
  /-- R177 -/
  | trunc (a : Value) (n : Int)
  /-- R178 -/
  | align (a : Value)
  /-- R200 -/
  | cmp (a b : Value)
  /-- R201 -/
  | eq (a b : Value)
  /-- R202 -/
  | ne (a b : Value)
  /-- R203 -/
  | gt (a b : Value)
  /-- R204 -/
  | ge (a b : Value)
  /-- R205 -/
  | lt (a b : Value)
  /-- R206 -/
  | le (a b : Value)
  deriving DecidableEq, Repr

/-- The pseudo-operation NEG is AINV whose flag the host does not read (R74, R125). -/
abbrev Instr.neg (a : Value) : Instr := .ainv a

/-- The pseudo-operation ZERO (R74). -/
abbrev Instr.zero : Instr := .fromint 0

/-- The pseudo-operation ONE (R74). -/
abbrev Instr.one : Instr := .fromint 1

end Sys2Proof
end

