-- ==== Sys2Proof/WellFormed.lean ====
section
/-! DEFINITION. Which instructions a command can carry. Values, bits, patterns and vector words are typed at their
exact widths and need no check (R21); what is left to check is that the signed integer `n` fits its 32-bit port
(R61, R71). -/

namespace Sys2Proof

/-- `n` is a signed integer in [−2^31, 2^31) (R14, R61). -/
def portFits (n : Int) : Bool := decide (-2 ^ 31 ≤ n) && decide (n < 2 ^ 31)

/-- An instruction that a command can carry: the formats AN, N and V check `n` (R65). -/
def Instr.wellFormed : Instr → Bool
  | .load _ => true
  | .loadv n _ => portFits n
  | .fromint n => portFits n
  | .fromf64 _ => true
  | .msb _ => true
  | .low64 _ => true
  | .add _ _ => true
  | .sub _ _ => true
  | .ainv _ => true
  | .not _ => true
  | .mul _ _ => true
  | .div _ _ => true
  | .ssl _ _ => true
  | .ssr _ _ => true
  | .lsl _ n => portFits n
  | .lsr _ n => portFits n
  | .asr _ n => portFits n
  | .trunc _ n => portFits n
  | .align _ => true
  | .cmp _ _ => true
  | .eq _ _ => true
  | .ne _ _ => true
  | .gt _ _ => true
  | .ge _ _ => true
  | .lt _ _ => true
  | .le _ _ => true

end Sys2Proof
end

