-- ==== Sys2Proof/Decode.lean ====
section
/-! DEFINITION. The operation-code map (R65, R67 to R69), the flat command word `CW` (R62), the decoder, total on every
content of the input ports, and after it the encoder. -/

namespace Sys2Proof

/-! ### Values and the flat command word as bit vectors -/

/-- The 113-bit pattern of a value: bit `i` of the pattern is bit `i` of `V` (R11, R62). -/
def Value.toBits (x : Value) : BitVec 113 := x.w4 ++ x.w3 ++ x.w2 ++ x.w1 ++ x.w0

/-- The value of a 113-bit pattern (R10, R11). -/
def Value.ofBits (v : BitVec 113) : Value where
  w0 := v.extractLsb' 0 28
  w1 := v.extractLsb' 28 28
  w2 := v.extractLsb' 56 28
  w3 := v.extractLsb' 84 28
  w4 := v.extractLsb' 112 1

/-- The flat command word `CW` of the fixed-width ports (R62). `vec` is not part of it. -/
def packWord (c : Command) : BitVec 328 :=
  c.f ++ c.b.toBits ++ c.a.toBits ++ c.n ++ c.cin ++ c.op

/-- The ports that the bits of a number stand for, placed as in the flat command word, with a list of words (R62). -/
def unpackBits (w : Nat) (vec : List VecWord) : Command where
  op  := BitVec.ofNat 5 w
  cin := BitVec.ofNat 1 (w >>> 5)
  n   := BitVec.ofNat 32 (w >>> 6)
  a   := Value.ofBits (BitVec.ofNat 113 (w >>> 38))
  b   := Value.ofBits (BitVec.ofNat 113 (w >>> 151))
  f   := BitVec.ofNat 64 (w >>> 264)
  vec := vec

/-- The ports that a flat command word and a list of words stand for (R62). -/
def unpackWord (cw : BitVec 328) (vec : List VecWord) : Command := unpackBits cw.toNat vec

/-! ### The operation-code map -/

/-- Why the decoder gives no instruction: the operation code is reserved (R69). -/
inductive DecodeError where
  | reservedOperation (op : BitVec 5)
  deriving DecidableEq, Repr

/-- The decoder (R67, R68): it looks at `op` and nothing else, and takes each operand whole from its port (R71).
The six codes that R67 gives no operation are rejected by name (R69). -/
def decode (c : Command) : Except DecodeError Instr :=
  match c.op.toNat with
  | 0x01 => .ok (.load c.a)
  | 0x02 => .ok (.loadv c.n.toInt c.vec)
  | 0x03 => .ok (.fromint c.n.toInt)
  | 0x04 => .ok (.fromf64 c.f)
  | 0x05 => .ok (.msb c.a)
  | 0x06 => .ok (.low64 c.a)
  | 0x08 => .ok (.add c.a c.b)
  | 0x09 => .ok (.sub c.a c.b)
  | 0x0A => .ok (.ainv c.a)
  | 0x0B => .ok (.not c.a)
  | 0x0C => .ok (.mul c.a c.b)
  | 0x0D => .ok (.div c.a c.b)
  | 0x10 => .ok (.ssl c.a c.cin)
  | 0x11 => .ok (.ssr c.a c.cin)
  | 0x12 => .ok (.lsl c.a c.n.toInt)
  | 0x13 => .ok (.lsr c.a c.n.toInt)
  | 0x14 => .ok (.asr c.a c.n.toInt)
  | 0x15 => .ok (.trunc c.a c.n.toInt)
  | 0x16 => .ok (.align c.a)
  | 0x18 => .ok (.cmp c.a c.b)
  | 0x19 => .ok (.eq c.a c.b)
  | 0x1A => .ok (.ne c.a c.b)
  | 0x1B => .ok (.gt c.a c.b)
  | 0x1C => .ok (.ge c.a c.b)
  | 0x1D => .ok (.lt c.a c.b)
  | 0x1E => .ok (.le c.a c.b)
  | _    => .error (.reservedOperation c.op)

/-- The decoder on a flat command word and its list of words (R62). -/
def decodeWord (cw : BitVec 328) (vec : List VecWord) : Except DecodeError Instr :=
  decode (unpackWord cw vec)

/-! ### The encoder -/

/-- The operation code of each operation (R67). -/
def Instr.code : Instr → BitVec 5
  | .load _ => 0x01
  | .loadv _ _ => 0x02
  | .fromint _ => 0x03
  | .fromf64 _ => 0x04
  | .msb _ => 0x05
  | .low64 _ => 0x06
  | .add _ _ => 0x08
  | .sub _ _ => 0x09
  | .ainv _ => 0x0A
  | .not _ => 0x0B
  | .mul _ _ => 0x0C
  | .div _ _ => 0x0D
  | .ssl _ _ => 0x10
  | .ssr _ _ => 0x11
  | .lsl _ _ => 0x12
  | .lsr _ _ => 0x13
  | .asr _ _ => 0x14
  | .trunc _ _ => 0x15
  | .align _ => 0x16
  | .cmp _ _ => 0x18
  | .eq _ _ => 0x19
  | .ne _ _ => 0x1A
  | .gt _ _ => 0x1B
  | .ge _ _ => 0x1C
  | .lt _ _ => 0x1D
  | .le _ _ => 0x1E

/-- The format of each operation (R65). -/
def Instr.format : Instr → Format
  | .load _ | .msb _ | .low64 _ | .ainv _ | .not _ | .align _ => .a
  | .add _ _ | .sub _ _ | .mul _ _ | .div _ _ => .ab
  | .cmp _ _ | .eq _ _ | .ne _ _ | .gt _ _ | .ge _ _ | .lt _ _ | .le _ _ => .ab
  | .ssl _ _ | .ssr _ _ => .ac
  | .lsl _ _ | .lsr _ _ | .asr _ _ | .trunc _ _ => .an
  | .fromint _ => .n
  | .fromf64 _ => .f
  | .loadv _ _ => .v

/-- The format as a function of the operation code alone; none for a reserved code (R65, R67, R69). -/
def formatOf (op : BitVec 5) : Option Format :=
  match op.toNat with
  | 0x01 | 0x05 | 0x06 | 0x0A | 0x0B | 0x16 => some .a
  | 0x08 | 0x09 | 0x0C | 0x0D => some .ab
  | 0x18 | 0x19 | 0x1A | 0x1B | 0x1C | 0x1D | 0x1E => some .ab
  | 0x10 | 0x11 => some .ac
  | 0x12 | 0x13 | 0x14 | 0x15 => some .an
  | 0x03 => some .n
  | 0x04 => some .f
  | 0x02 => some .v
  | _ => none

/-- The mnemonic of each operation (R17, R67). -/
def Instr.mnemonic : Instr → String
  | .load _ => "LOAD"
  | .loadv _ _ => "LOADV"
  | .fromint _ => "FROMINT"
  | .fromf64 _ => "FROMF64"
  | .msb _ => "MSB"
  | .low64 _ => "LOW64"
  | .add _ _ => "ADD"
  | .sub _ _ => "SUB"
  | .ainv _ => "AINV"
  | .not _ => "NOT"
  | .mul _ _ => "MUL"
  | .div _ _ => "DIV"
  | .ssl _ _ => "SSL"
  | .ssr _ _ => "SSR"
  | .lsl _ _ => "LSL"
  | .lsr _ _ => "LSR"
  | .asr _ _ => "ASR"
  | .trunc _ _ => "TRUNC"
  | .align _ => "ALIGN"
  | .cmp _ _ => "CMP"
  | .eq _ _ => "EQ"
  | .ne _ _ => "NE"
  | .gt _ _ => "GT"
  | .ge _ _ => "GE"
  | .lt _ _ => "LT"
  | .le _ _ => "LE"

/-- All ports zero but `op`: the ports a format does not read are written as zero (R62). -/
def blankCommand (op : BitVec 5) : Command where
  op  := op
  a   := Value.zero
  b   := Value.zero
  n   := 0
  cin := 0
  f   := 0
  vec := []

/-- The encoder: the ports that present a well-formed instruction (R62, R65, R67). -/
def encode (i : Instr) : Command :=
  let c := blankCommand i.code
  match i with
  | .load a => { c with a := a }
  | .loadv n vec => { c with n := BitVec.ofInt 32 n, vec := vec }
  | .fromint n => { c with n := BitVec.ofInt 32 n }
  | .fromf64 f => { c with f := f }
  | .msb a => { c with a := a }
  | .low64 a => { c with a := a }
  | .add a b => { c with a := a, b := b }
  | .sub a b => { c with a := a, b := b }
  | .ainv a => { c with a := a }
  | .not a => { c with a := a }
  | .mul a b => { c with a := a, b := b }
  | .div a b => { c with a := a, b := b }
  | .ssl a cin => { c with a := a, cin := cin }
  | .ssr a cin => { c with a := a, cin := cin }
  | .lsl a n => { c with a := a, n := BitVec.ofInt 32 n }
  | .lsr a n => { c with a := a, n := BitVec.ofInt 32 n }
  | .asr a n => { c with a := a, n := BitVec.ofInt 32 n }
  | .trunc a n => { c with a := a, n := BitVec.ofInt 32 n }
  | .align a => { c with a := a }
  | .cmp a b => { c with a := a, b := b }
  | .eq a b => { c with a := a, b := b }
  | .ne a b => { c with a := a, b := b }
  | .gt a b => { c with a := a, b := b }
  | .ge a b => { c with a := a, b := b }
  | .lt a b => { c with a := a, b := b }
  | .le a b => { c with a := a, b := b }

/-! ### The opcode table's words -/

/-- The command whose `CW` has the low `nbits` bits of `w` and zeros above, with no vector words (log entry 2). -/
def tableCommand (nbits w : Nat) : Command :=
  unpackBits (w % 2 ^ nbits) []

/-- The instruction the decoder reads from a word numbered as the opcode table numbers it: `CW` bit for bit. -/
def decodeTableWord (nbits w : Nat) : Option Instr :=
  match decode (tableCommand nbits w) with
  | .ok i => some i
  | .error _ => none

end Sys2Proof
end

