-- ==== Sys2Proof/Machine/State.lean ====
section
/-! DEFINITION. What one run of the core is made of: the responses the core gives (R63, R64), the reasons the machine
can stop, and State. The core itself has no architectural state (R25 to R29, R250): State holds the two ends of its one
command/response channel, the host's commands still to be answered and the trace of answered ones (R66, R250). -/

namespace Sys2Proof.Machine

/-- The three fault conditions of the core (R220). Each is the status of a RESPONSE: the machine goes on, and the next
command is handled as any other (R224, R230). No step of this model answers `Host.Outcome.fault`, because the spec
names nothing that stops the core (log entry 4). -/
inductive Fault where
  /-- Raised by LOADV, LSL, LSR, ASR and TRUNC (R222), into the trace. Safe: it is the spec's own response. -/
  | invalidArgument
  /-- Raised by FROMINT and FROMF64 (R222), into the trace. Safe: it is the spec's own response. -/
  | overflow
  /-- Raised by DIV (R222), into the trace. Safe: it is the spec's own response. -/
  | divisionByZero
  deriving DecidableEq, Repr

/-- Why a command has no response: the two refusals of R227, and the dispatcher's rejection of an instruction that has
no meaning yet. -/
inductive Refusal where
  /-- Raised by a dispatch arm without a meaning (there is none in this model). Safe: nothing is claimed. -/
  | notModelled (mnemonic : String)
  /-- Raised by the step on one of the six reserved operation codes (R69, R227). Safe: the spec refuses it too
  (log entry 14). -/
  | reservedOperation (code : BitVec 5)
  /-- Raised by LOADV on a good offset with a word too large for its limb (R102, R227). Safe: the spec refuses it too
  (log entry 14). -/
  | limbOutOfRange
  deriving DecidableEq, Repr

/-- The response to one command (R63, R64): the outputs an OK response carries and no others, or a fault status and
nothing else (R224). One constructor for each set of outputs in the table of R67. -/
inductive Response where
  /-- Carries `r`. -/
  | value (r : Value)
  /-- Carries `r` and `c`. -/
  | valueFlag (r : Value) (c : Bit)
  /-- Carries `r` and `s`. -/
  | valueScalar (r : Value) (s : Scalar)
  /-- Carries `c`. -/
  | flag (c : Bit)
  /-- Carries `s`. -/
  | scalar (s : Scalar)
  /-- Carries a status other than OK, alone. -/
  | fault (f : Fault)
  deriving DecidableEq, Repr

/-- The machine: the host's side of the input ports and the record of what the core has answered. -/
structure State where
  /-- The one stream of commands from the one host (R50, R66), the next one first. The core takes one at a time; the
  rest are the host's and the core never looks at them (log entry 8). -/
  pending : List Command
  /-- The trace of the core: the commands answered and their responses, oldest first (R66, R230, R250; log entry 9). -/
  trace : List (Instr × Response)
  deriving DecidableEq, Repr

/-- After reset there is nothing (R33, R250): no command presented, and the empty trace. -/
def State.reset : State where
  pending := []
  trace := []

end Sys2Proof.Machine
end

