-- ==== Sys2Proof/Machine/Ops.lean ====
section
/-! DEFINITION. The operations over the channel: taking the next command, giving a response, raising a fault, and what
the output ports then carry. -/

namespace Sys2Proof.Machine

/-- The core accepts the next command of the stream (R60, R66): the command and the machine without it; none when the
host presents none. -/
def acceptCommand (s : State) : Option (Command × State) :=
  match s.pending with
  | [] => none
  | c :: rest => some (c, { s with pending := rest })

/-- The host presents `c` ahead of whatever else it would issue. -/
def presentCommand (c : Command) (s : State) : State := { s with pending := c :: s.pending }

/-- The core gives one response to one command (R60): the pair joins the end of the trace (R66). Nothing else
changes, since there is nothing else (R25 to R29). -/
def respond (i : Instr) (resp : Response) (s : State) : State :=
  { s with trace := s.trace ++ [(i, resp)] }

/-- An operation that completes: its OK response, and the core is ready for the next command. -/
def answer (i : Instr) (resp : Response) (s : State) : Host.Outcome State Fault Refusal :=
  .next (respond i resp s)

/-- Taking an exception, the one shared operation for all three faults (R224, R229): the whole of trap entry is the
fault response. Nothing is saved, no mode or mask changes and control goes nowhere. The return from one is nothing at
all (R230): the core is at once ready for the next command (log entry 4). -/
def raise (i : Instr) (f : Fault) (s : State) : Host.Outcome State Fault Refusal :=
  answer i (.fault f) s

/-! ### The output ports -/

/-- The code of a fault on the port `status` (R221). -/
def faultCode : Fault → BitVec 2
  | .invalidArgument => 1
  | .overflow => 2
  | .divisionByZero => 3

/-- The port `status` (R63, R221). -/
def Response.status : Response → BitVec 2
  | .fault f => faultCode f
  | _ => 0

/-- The value output, where the response carries one (R64). -/
def Response.r : Response → Option Value
  | .value r | .valueFlag r _ | .valueScalar r _ => some r
  | _ => none

/-- The flag output, where the response carries one (R64). -/
def Response.c : Response → Option Bit
  | .valueFlag _ c | .flag c => some c
  | _ => none

/-- The scalar output, where the response carries one (R64). -/
def Response.s : Response → Option Scalar
  | .valueScalar _ s | .scalar s => some s
  | _ => none

/-- The flat response word `RW` (R63): the carried outputs at their places, and `undriven` wherever the response
carries nothing (R64). -/
def Response.word (resp : Response) (undriven : BitVec 180) : BitVec 180 :=
  resp.s.getD (undriven.extractLsb' 116 64)
    ++ (resp.r.map Value.toBits).getD (undriven.extractLsb' 3 113)
    ++ resp.c.getD (undriven.extractLsb' 2 1)
    ++ resp.status

/-- The latest response, none before the first (R33, R250). -/
def lastResponse (s : State) : Option Response := s.trace.getLast?.map Prod.snd

/-- What the output ports carry: the latest response, and a free value in every place that no response defines
(R33, R64, R250; log entry 3). DESIGN CHOICE (log entry 15): the ports go on showing the latest response until the next
one, an idle step between them included. The spec gives no handshake (U11) and holds no output (R24, R27), so it does not
say how long a response stays on the ports. -/
def outputPorts (s : State) : BitVec 180 :=
  match lastResponse s with
  | none => Config.undriven s.trace.length
  | some resp => resp.word (Config.undriven s.trace.length)

end Sys2Proof.Machine
end

