-- ==== Sys2Proof/Machine/Compare.lean ====
section
/-! DEFINITION. The comparator: one total order and seven ways of asking about it, CMP, EQ, NE, GT, GE, LT, LE
(R200 to R208). -/

namespace Sys2Proof.Machine

/-! ### The functions other rules call (R208) -/

/-- One limb of the comparison, as unsigned integers; an equal limb leaves the decision to the limbs below it (R208). -/
def cmpLimb (x y : Nat) (below : Ordering) : Ordering :=
  if x < y then .lt else if x > y then .gt else below

/-- `Cmp(x, y)` (R208): the first unequal limb decides, the most significant limb first. -/
def fxCmp (x y : Value) : Ordering :=
  cmpLimb x.w4.toNat y.w4.toNat <| cmpLimb x.w3.toNat y.w3.toNat <| cmpLimb x.w2.toNat y.w2.toNat <|
    cmpLimb x.w1.toNat y.w1.toNat <| cmpLimb x.w0.toNat y.w0.toNat .eq

/-- `Eq(a, b)` (R201): structural equality across all five limbs. -/
def fxEq (a b : Value) : Bit :=
  flagOf (decide (a.w0 = b.w0) && decide (a.w1 = b.w1) && decide (a.w2 = b.w2) && decide (a.w3 = b.w3)
    && decide (a.w4 = b.w4))

/-- `1 − Eq(a, b)` (R202). -/
def fxNe (a b : Value) : Bit := 1 - fxEq a b

/-- `Gt(a, b)` (R203). -/
def fxGt (a b : Value) : Bit := flagOf (decide (fxCmp a b = .gt))

/-- `Ge(a, b) = Gt(a, b) | Eq(a, b)` (R204). -/
def fxGe (a b : Value) : Bit := fxGt a b ||| fxEq a b

/-- `Lt(a, b) = 1 − (Gt(a, b) | Eq(a, b))` (R205). -/
def fxLt (a b : Value) : Bit := 1 - (fxGt a b ||| fxEq a b)

/-- `1 − Gt(a, b)` (R206). -/
def fxLe (a b : Value) : Bit := 1 - fxGt a b

/-- The three-way result on `s` (R200): −1, 0 or +1 as a 64-bit two's-complement number. -/
def orderScalar : Ordering → Scalar
  | .lt => 0xFFFFFFFFFFFFFFFF
  | .eq => 0
  | .gt => 1

/-! ### The operations -/

/-- CMP (R200). -/
def execCmp (a b : Value) (s : State) : Host.Outcome State Fault Refusal :=
  answer (.cmp a b) (.scalar (orderScalar (fxCmp a b))) s

/-- EQ (R201). -/
def execEq (a b : Value) (s : State) : Host.Outcome State Fault Refusal :=
  answer (.eq a b) (.flag (fxEq a b)) s

/-- NE (R202). -/
def execNe (a b : Value) (s : State) : Host.Outcome State Fault Refusal :=
  answer (.ne a b) (.flag (fxNe a b)) s

/-- GT (R203). -/
def execGt (a b : Value) (s : State) : Host.Outcome State Fault Refusal :=
  answer (.gt a b) (.flag (fxGt a b)) s

/-- GE (R204). -/
def execGe (a b : Value) (s : State) : Host.Outcome State Fault Refusal :=
  answer (.ge a b) (.flag (fxGe a b)) s

/-- LT (R205). -/
def execLt (a b : Value) (s : State) : Host.Outcome State Fault Refusal :=
  answer (.lt a b) (.flag (fxLt a b)) s

/-- LE (R206). -/
def execLe (a b : Value) (s : State) : Host.Outcome State Fault Refusal :=
  answer (.le a b) (.flag (fxLe a b)) s

end Sys2Proof.Machine
end

