-- ==== Sys2Proof/Machine/Operands.lean ====
section
/-! DEFINITION. The operand forms that are more than a port read whole (R71): the limb vector of LOADV (R41 to R43,
R102), the count of the multi-bit shifts (R173), and the binary64 pattern of FROMF64 (R45, R104). -/

namespace Sys2Proof.Machine

/-! ### Limb arithmetic in base 2^28 -/

/-- `t & M28`: the low limb of an unbounded integer (R8, R14). -/
def lowLimb (t : Nat) : Limb := BitVec.ofNat 28 t

/-- `t >> 28`: what an integer carries beyond its low limb (R14). -/
def carryOn (t : Nat) : Nat := t / 2 ^ 28

/-! ### The limb vector -/

/-- Fewer than five elements are available from the offset, or it is negative (R102, R222). The sum is on integers and
cannot wrap (R102). -/
def badOffset (n : Int) (vec : List VecWord) : Bool :=
  decide (n < 0) || decide (n + 5 > (vec.length : Int))

/-- The word `vec[n + k]` for a good offset `n` (R43, R102). -/
def vecWord (vec : List VecWord) (n : Int) (k : Nat) : VecWord := vec.getD (n.toNat + k) 0

/-- The five words fit their limbs: each of the first four below 2^28 and the fifth below 2 (R102). -/
def limbsFit (n : Int) (vec : List VecWord) : Bool :=
  decide ((vecWord vec n 0).toNat < 2 ^ 28) && decide ((vecWord vec n 1).toNat < 2 ^ 28)
    && decide ((vecWord vec n 2).toNat < 2 ^ 28) && decide ((vecWord vec n 3).toNat < 2 ^ 28)
    && decide ((vecWord vec n 4).toNat < 2)

/-- The value whose limb `w[k]` is the word `vec[n + k]` (R43, R102). -/
def vecValue (vec : List VecWord) (n : Int) : Value where
  w0 := lowLimb (vecWord vec n 0).toNat
  w1 := lowLimb (vecWord vec n 1).toNat
  w2 := lowLimb (vecWord vec n 2).toNat
  w3 := lowLimb (vecWord vec n 3).toNat
  w4 := BitVec.ofNat 1 (vecWord vec n 4).toNat

/-! ### Counts -/

/-- How many single-bit steps a count stands for: a count of 113 or more has the result of 113 steps, which shift every
original bit out (R173, R258; log entry 5). -/
def steps (k : Nat) : Nat := min k Config.numBits

/-! ### binary64 (R45, R104; log entry 10) -/

/-- The sign bit `f[63]` (R45). -/
def f64Sign (f : Scalar) : Bit := f.extractLsb' 63 1

/-- The biased exponent `e = f[62:52]` (R45). -/
def f64Exp (f : Scalar) : Nat := (f.extractLsb' 52 11).toNat

/-- The fraction `m = f[51:0]` (R45). -/
def f64Frac (f : Scalar) : Nat := (f.extractLsb' 0 52).toNat

/-- The integer `M` with `|x| = M / 2^D`: `m` when `e = 0`, and `2^52 + m` otherwise (R104). -/
def f64Mant (f : Scalar) : Nat := if f64Exp f = 0 then f64Frac f else 2 ^ 52 + f64Frac f

/-- The integer `D` with `|x| = M / 2^D`: 1074 when `e = 0`, and `1075 − e` otherwise, for a number below 2 (R104). -/
def f64Den (f : Scalar) : Nat := if f64Exp f = 0 then 1074 else 1075 - f64Exp f

/-- The number is not in [0, 2) (R104, R222): a NaN or an infinity, a negative number other than zero, or 2 and more,
which is the same as `e ≥ 1024`. -/
def f64Outside (f : Scalar) : Bool :=
  decide (f64Exp f = 0x7FF) || (decide (f64Sign f = 1) && decide (f64Mant f ≠ 0)) || decide (f64Exp f ≥ 1024)

end Sys2Proof.Machine
end

