-- ==== Sys2Proof/Machine/AddSub.lean ====
section
/-! DEFINITION. The adder and the subtractor: ADD, NOT, AINV, SUB (R120 to R126). -/

namespace Sys2Proof.Machine

/-! ### The functions other rules call (R120) -/

/-- `Add(x, y)` (R121): limb-wise addition in base 2^28, the carry propagated from `w0` upward; the raw top sum gives
the new `w4` and the carry-out. -/
def fxAdd (a b : Value) : Value × Bit :=
  let s0 := a.w0.toNat + b.w0.toNat
  let s1 := a.w1.toNat + b.w1.toNat + carryOn s0
  let s2 := a.w2.toNat + b.w2.toNat + carryOn s1
  let s3 := a.w3.toNat + b.w3.toNat + carryOn s2
  let s4 := a.w4.toNat + b.w4.toNat + carryOn s3
  (⟨lowLimb s0, lowLimb s1, lowLimb s2, lowLimb s3, topBit s4⟩, carryBit s4)

/-- `Not(x)` (R122): every limb complemented within its own width. -/
def fxNot (a : Value) : Value := ⟨~~~ a.w0, ~~~ a.w1, ~~~ a.w2, ~~~ a.w3, ~~~ a.w4⟩

/-- `AInv(x)` (R123): complement, then add `Ulp`. -/
def fxAInv (a : Value) : Value × Bit := fxAdd (fxNot a) Value.ulp

/-- `Sub(x, y)` (R124): the sum with the negated subtrahend, both inner carries discarded; the borrow is the
comparator's (R259). -/
def fxSub (a b : Value) : Value × Bit := ((fxAdd a (fxAInv b).1).1, fxLt a b)

/-! ### The operations -/

/-- ADD (R121). -/
def execAdd (a b : Value) (s : State) : Host.Outcome State Fault Refusal :=
  answer (.add a b) (.valueFlag (fxAdd a b).1 (fxAdd a b).2) s

/-- NOT (R122). -/
def execNot (a : Value) (s : State) : Host.Outcome State Fault Refusal :=
  answer (.not a) (.value (fxNot a)) s

/-- AINV (R123). -/
def execAinv (a : Value) (s : State) : Host.Outcome State Fault Refusal :=
  answer (.ainv a) (.valueFlag (fxAInv a).1 (fxAInv a).2) s

/-- SUB (R124). -/
def execSub (a b : Value) (s : State) : Host.Outcome State Fault Refusal :=
  answer (.sub a b) (.valueFlag (fxSub a b).1 (fxSub a b).2) s

end Sys2Proof.Machine
end

