-- ==== Sys2Proof/Machine/Shift.lean ====
section
/-! DEFINITION. The shifter: SSL, SSR, LSL, LSR, ASR, TRUNC, ALIGN (R170 to R179). -/

namespace Sys2Proof.Machine

/-! ### The functions other rules call (R170) -/

/-- `SSL(x, ci)` (R171): left by one; the old bit 112 goes nowhere. -/
def fxSsl (a : Value) (cin : Bit) : Value where
  w0 := (a.w0 <<< 1) ||| cin.setWidth 28
  w1 := (a.w1 <<< 1) ||| (a.w0 >>> 27)
  w2 := (a.w2 <<< 1) ||| (a.w1 >>> 27)
  w3 := (a.w3 <<< 1) ||| (a.w2 >>> 27)
  w4 := (a.w3 >>> 27).setWidth 1

/-- `SSR(x, ci)` (R172): right by one; the old bit 0 goes nowhere. -/
def fxSsr (a : Value) (cin : Bit) : Value where
  w0 := (a.w0 >>> 1) ||| ((a.w1 &&& 1) <<< 27)
  w1 := (a.w1 >>> 1) ||| ((a.w2 &&& 1) <<< 27)
  w2 := (a.w2 >>> 1) ||| ((a.w3 &&& 1) <<< 27)
  w3 := (a.w3 >>> 1) ||| (a.w4.setWidth 28 <<< 27)
  w4 := cin

/-- `LSL(x, k)` (R174): `k` times SSL with carry-in 0. -/
def fxLsl (a : Value) (k : Nat) : Value := (fun r => fxSsl r 0)^[steps k] a

/-- `LSR(x, k)` (R175): `k` times SSR with carry-in 0. -/
def fxLsr (a : Value) (k : Nat) : Value := (fun r => fxSsr r 0)^[steps k] a

/-- `ASR(x, k)` (R176): `k` times SSR with the original Msb, read once. -/
def fxAsr (a : Value) (k : Nat) : Value := (fun r => fxSsr r a.w4)^[steps k] a

/-- Limb `k` of TRUNC (R177), `w` bits wide, with `q` whole limbs to clear and `rem` bits of the boundary limb. -/
def truncLimb {w : Nat} (x : BitVec w) (k q rem : Nat) : BitVec w :=
  if k < q then 0 else if k = q then x &&& ~~~ BitVec.ofNat w (2 ^ rem - 1) else x

/-- `Trunc(x, n)` (R177): clear the low `n` bits where they stand. -/
def fxTrunc (a : Value) (n : Nat) : Value :=
  if n ≥ 113 then Value.zero
  else
    { w0 := truncLimb a.w0 0 (n / 28) (n % 28)
      w1 := truncLimb a.w1 1 (n / 28) (n % 28)
      w2 := truncLimb a.w2 2 (n / 28) (n % 28)
      w3 := truncLimb a.w3 3 (n / 28) (n % 28)
      w4 := truncLimb a.w4 4 (n / 28) (n % 28) }

/-- The loop of ALIGN (R178), with the running value and its count, and at most `fuel` more shifts. -/
def alignLoop : Nat → Value → Nat → Value × Nat
  | 0, r, count => (r, count)
  | fuel + 1, r, count =>
    if r.w4 = 0 ∧ fxEq r Value.zero = 0 then alignLoop fuel (fxSsl r 0) (count + 1) else (r, count)

/-- `Align(x)` (R178): the aligned value and the shift count, which is at most 112 (R178; log entry 6). -/
def fxAlign (a : Value) : Value × Nat := alignLoop 112 a 0

/-! ### The operations -/

/-- SSL (R171). -/
def execSsl (a : Value) (cin : Bit) (s : State) : Host.Outcome State Fault Refusal :=
  answer (.ssl a cin) (.value (fxSsl a cin)) s

/-- SSR (R172). -/
def execSsr (a : Value) (cin : Bit) (s : State) : Host.Outcome State Fault Refusal :=
  answer (.ssr a cin) (.value (fxSsr a cin)) s

/-- LSL (R174): a count of 0 or less is an invalid argument. -/
def execLsl (a : Value) (n : Int) (s : State) : Host.Outcome State Fault Refusal :=
  if n ≤ 0 then raise (.lsl a n) .invalidArgument s
  else answer (.lsl a n) (.value (fxLsl a n.toNat)) s

/-- LSR (R175): a negative count is an invalid argument; 0 is legal. -/
def execLsr (a : Value) (n : Int) (s : State) : Host.Outcome State Fault Refusal :=
  if n < 0 then raise (.lsr a n) .invalidArgument s
  else answer (.lsr a n) (.value (fxLsr a n.toNat)) s

/-- ASR (R176): a negative count is an invalid argument; 0 is legal. -/
def execAsr (a : Value) (n : Int) (s : State) : Host.Outcome State Fault Refusal :=
  if n < 0 then raise (.asr a n) .invalidArgument s
  else answer (.asr a n) (.value (fxAsr a n.toNat)) s

/-- TRUNC (R177): a negative count is an invalid argument; 0 is legal. -/
def execTrunc (a : Value) (n : Int) (s : State) : Host.Outcome State Fault Refusal :=
  if n < 0 then raise (.trunc a n) .invalidArgument s
  else answer (.trunc a n) (.value (fxTrunc a n.toNat)) s

/-- ALIGN (R178): the aligned value on `r`, the shift count on `s`. -/
def execAlign (a : Value) (s : State) : Host.Outcome State Fault Refusal :=
  answer (.align a) (.valueScalar (fxAlign a).1 (BitVec.ofNat 64 (fxAlign a).2)) s

end Sys2Proof.Machine
end

