-- ==== Sys2Proof/Machine/Construct.lean ====
section
/-! DEFINITION. The converters: LOAD, LOADV, FROMINT, FROMF64, MSB, LOW64 (R100 to R107). -/

namespace Sys2Proof.Machine

/-- LOAD (R101): the five limbs as they stand. -/
def execLoad (a : Value) (s : State) : Host.Outcome State Fault Refusal :=
  answer (.load a) (.value a) s

/-- LOADV (R102): the offset is tested first, then the range of the five words (R226). A word too large for its limb is
a refusal (R227). -/
def execLoadv (n : Int) (vec : List VecWord) (s : State) : Host.Outcome State Fault Refusal :=
  if badOffset n vec then raise (.loadv n vec) .invalidArgument s
  else if limbsFit n vec then answer (.loadv n vec) (.value (vecValue vec n)) s
  else .refused .limbOutOfRange

/-- FROMINT (R103): only 0 and 1 are legal. -/
def execFromint (n : Int) (s : State) : Host.Outcome State Fault Refusal :=
  if n = 0 then answer (.fromint n) (.value Value.zero) s
  else if n = 1 then answer (.fromint n) (.value Value.one) s
  else raise (.fromint n) .overflow s

/-- One extraction of FROMF64 (R104) on the residual `y / 2^d` and the result under construction: the integer part of
the residual is shifted in, and what is left is doubled. -/
def f64Step (d : Nat) (yR : Nat × Value) : Nat × Value :=
  let bit := yR.1 >>> d
  (2 * (yR.1 - (bit <<< d)), fxSsl yR.2 (BitVec.ofNat 1 bit))

/-- The 113 extractions of FROMF64 (R104), for a number in [0, 2). The first one takes the integer part of the number
itself (90_conflicts.md C7). -/
def fxFromF64 (f : Scalar) : Value :=
  ((f64Step (f64Den f))^[Config.f64Iter] (f64Mant f, Value.zero)).2

/-- FROMF64 (R104). -/
def execFromf64 (f : Scalar) (s : State) : Host.Outcome State Fault Refusal :=
  if f64Outside f then raise (.fromf64 f) .overflow s
  else answer (.fromf64 f) (.value (fxFromF64 f)) s

/-- MSB (R106): `c` is `w4`. -/
def execMsb (a : Value) (s : State) : Host.Outcome State Fault Refusal :=
  answer (.msb a) (.flag a.msb) s

/-- The low 64 bits (R107): `w0`, `w1` and the low 8 bits of `w2`, at their weights. -/
def fxLow64 (a : Value) : Scalar :=
  a.w0.setWidth 64 ||| (a.w1.setWidth 64 <<< 28) ||| ((a.w2 &&& 0xFF).setWidth 64 <<< 56)

/-- LOW64 (R107). -/
def execLow64 (a : Value) (s : State) : Host.Outcome State Fault Refusal :=
  answer (.low64 a) (.scalar (fxLow64 a)) s

end Sys2Proof.Machine
end

