-- ==== Sys2Proof/Machine/Divide.lean ====
section
/-! DEFINITION. The divider: DIV (R150 to R155), built from ALIGN, GE, SUB, SSL, LSR and LSL as they stand, with what
they discard (R150, R255). -/

namespace Sys2Proof.Machine

/-- One iteration of the loop (R151 step 2) with divisor `B`, on the running dividend `A` and the quotient `Q`: both
113 bits, so the shift of `A` discards its bit 112 (R151, R254). -/
def divStep (B : Value) (AQ : Value × Value) : Value × Value :=
  if fxGe AQ.1 B = 1 then (fxSsl (fxSub AQ.1 B).1 0, fxSsl AQ.2 1)
  else (fxSsl AQ.1 0, fxSsl AQ.2 0)

/-- The raw quotient of two aligned operands: 113 iterations from `Q = Zero` (R151 step 2). -/
def divLoop (A B : Value) : Value := ((divStep B)^[Config.divIter] (A, Value.zero)).2

/-- The rescale by the net shift (R151 step 3, R152): a net shift of 0 goes through LSR, never through LSL. -/
def divRescale (Q : Value) (shiftRight : Int) : Value :=
  if shiftRight ≥ 0 then fxLsr Q shiftRight.toNat else fxLsl Q (-shiftRight).toNat

/-- The quotient (R151) of a dividend and a divisor other than `Zero`. -/
def fxDiv (a b : Value) : Value :=
  let (A, aShift) := fxAlign a
  let (B, bShift) := fxAlign b
  divRescale (divLoop A B) ((aShift : Int) - (bShift : Int))

/-- DIV (R151): the zero test comes first (R226). -/
def execDiv (a b : Value) (s : State) : Host.Outcome State Fault Refusal :=
  if fxEq b Value.zero = 1 then raise (.div a b) .divisionByZero s
  else answer (.div a b) (.value (fxDiv a b)) s

end Sys2Proof.Machine
end

