-- ==== Sys2Proof/Machine/Multiply.lean ====
section
/-! DEFINITION. The multiplier: MUL (R140 to R144). -/

namespace Sys2Proof.Machine

/-- The convolution (R141 step 1): the nine accumulators, position 0 first, with the 25 limb products where
R141's table puts them. They are unbounded integers, which 64-bit accumulators never exceed (R142; log entry 7). -/
def convolve (a b : Value) : List Nat :=
  let (a0, a1, a2, a3, a4) := (a.w0.toNat, a.w1.toNat, a.w2.toNat, a.w3.toNat, a.w4.toNat)
  let (b0, b1, b2, b3, b4) := (b.w0.toNat, b.w1.toNat, b.w2.toNat, b.w3.toNat, b.w4.toNat)
  [a0 * b0,
   a0 * b1 + a1 * b0,
   a0 * b2 + a1 * b1 + a2 * b0,
   a0 * b3 + a1 * b2 + a2 * b1 + a3 * b0,
   a0 * b4 + a1 * b3 + a2 * b2 + a3 * b1 + a4 * b0,
   a1 * b4 + a2 * b3 + a3 * b2 + a4 * b1,
   a2 * b4 + a3 * b3 + a4 * b2,
   a3 * b4 + a4 * b3,
   a4 * b4]

/-- Carry normalisation in base 2^28 (R141 step 2), from the position at the head upward. -/
def normalise (carry : Nat) : List Nat → List Limb
  | [] => []
  | acc :: rest => lowLimb (acc + carry) :: normalise (carryOn (acc + carry)) rest

/-- `Mul(x, y)` (R140, R141): positions 4 to 7 are kept whole, position 8 gives the new `w4` and the carry-out, and
positions 0 to 3 are dropped. -/
def fxMul (a b : Value) : Value × Bit :=
  let p := normalise 0 (convolve a b)
  let p8 := (p.getD 8 0).toNat
  (⟨p.getD 4 0, p.getD 5 0, p.getD 6 0, p.getD 7 0, topBit p8⟩, carryBit p8)

/-- MUL (R141). -/
def execMul (a b : Value) (s : State) : Host.Outcome State Fault Refusal :=
  answer (.mul a b) (.valueFlag (fxMul a b).1 (fxMul a b).2) s

end Sys2Proof.Machine
end

