-- ==== Sys2Proof/Machine/Dispatch.lean ====
section
/-! DEFINITION. One arm per operation of R67. -/

namespace Sys2Proof.Machine

def exec (i : Instr) (s : State) : Host.Outcome State Fault Refusal :=
  match i with
  | .load a => Sys2Proof.Machine.execLoad a s
  | .loadv n vec => Sys2Proof.Machine.execLoadv n vec s
  | .fromint n => Sys2Proof.Machine.execFromint n s
  | .fromf64 f => Sys2Proof.Machine.execFromf64 f s
  | .msb a => Sys2Proof.Machine.execMsb a s
  | .low64 a => Sys2Proof.Machine.execLow64 a s
  | .add a b => Sys2Proof.Machine.execAdd a b s
  | .sub a b => Sys2Proof.Machine.execSub a b s
  | .ainv a => Sys2Proof.Machine.execAinv a s
  | .not a => Sys2Proof.Machine.execNot a s
  | .mul a b => Sys2Proof.Machine.execMul a b s
  | .div a b => Sys2Proof.Machine.execDiv a b s
  | .ssl a cin => Sys2Proof.Machine.execSsl a cin s
  | .ssr a cin => Sys2Proof.Machine.execSsr a cin s
  | .lsl a n => Sys2Proof.Machine.execLsl a n s
  | .lsr a n => Sys2Proof.Machine.execLsr a n s
  | .asr a n => Sys2Proof.Machine.execAsr a n s
  | .trunc a n => Sys2Proof.Machine.execTrunc a n s
  | .align a => Sys2Proof.Machine.execAlign a s
  | .cmp a b => Sys2Proof.Machine.execCmp a b s
  | .eq a b => Sys2Proof.Machine.execEq a b s
  | .ne a b => Sys2Proof.Machine.execNe a b s
  | .gt a b => Sys2Proof.Machine.execGt a b s
  | .ge a b => Sys2Proof.Machine.execGe a b s
  | .lt a b => Sys2Proof.Machine.execLt a b s
  | .le a b => Sys2Proof.Machine.execLe a b s

end Sys2Proof.Machine
end

