-- ==== Sys2Proof/Machine/Step.lean ====
section
/-! DEFINITION. One step of the core is one whole command (R15; log entry 13): it is accepted, decoded and answered. -/

namespace Sys2Proof.Machine

/-- One step (R15, R60, R66). With no command presented the core waits and nothing changes (log entry 1). A reserved
operation code is refused before anything else is considered (R226). -/
def step (s : State) : Host.Outcome State Fault Refusal :=
  match acceptCommand s with
  | none => .next s
  | some (c, s') =>
    match decode c with
    | .error (.reservedOperation op) => .refused (.reservedOperation op)
    | .ok i => exec i s'

/-- The machine with the command of an opcode-table word presented next (log entry 2). -/
def State.withFetchWord (s : State) (nbits w : Nat) : State := presentCommand (tableCommand nbits w) s

end Sys2Proof.Machine
end

