-- ==== Sys2Proof/Safety.lean ====
section
/-! DEFINITION. What claims about the core are stated in: the response an operation gives, the output and fault columns
of the operation-code map (R67, R222), the integer arithmetic the rules' closed forms use, and what it means that every
response of a trace is the one its rule gives. The arithmetic here is on integers and rationals alone; it calls no
operation of the machine. -/

namespace Sys2Proof.Safety

open Sys2Proof.Machine

/-! ### The response to a command -/

/-- The response an operation gives, none where the command is refused. It is read off a core that has answered
nothing before; that no other core answers differently is a claim (R16, R50). -/
def responseTo (i : Instr) : Option Response :=
  match exec i State.reset with
  | .next t => lastResponse t
  | .fault _ => none
  | .refused _ => none

/-- Every response of the trace has status OK, the usual premise of a claim about a trace (R230). -/
def noFault (s : State) : Bool := s.trace.all fun p => decide (p.2.status = 0)

/-! ### The columns of the operation-code map -/

/-- The six reserved operation codes (R69). -/
def reservedCodes : List (BitVec 5) := [0x00, 0x07, 0x0E, 0x0F, 0x17, 0x1F]

/-- R67's column "outputs" lists `r`. -/
def listsValue : Instr → Bool
  | .load _ | .loadv _ _ | .fromint _ | .fromf64 _ => true
  | .add _ _ | .sub _ _ | .ainv _ | .not _ | .mul _ _ | .div _ _ => true
  | .ssl _ _ | .ssr _ _ | .lsl _ _ | .lsr _ _ | .asr _ _ | .trunc _ _ | .align _ => true
  | .msb _ | .low64 _ | .cmp _ _ => false
  | .eq _ _ | .ne _ _ | .gt _ _ | .ge _ _ | .lt _ _ | .le _ _ => false

/-- R67's column "outputs" lists `c`. -/
def listsFlag : Instr → Bool
  | .msb _ | .add _ _ | .sub _ _ | .ainv _ | .mul _ _ => true
  | .eq _ _ | .ne _ _ | .gt _ _ | .ge _ _ | .lt _ _ | .le _ _ => true
  | .load _ | .loadv _ _ | .fromint _ | .fromf64 _ | .low64 _ | .not _ | .div _ _ => false
  | .ssl _ _ | .ssr _ _ | .lsl _ _ | .lsr _ _ | .asr _ _ | .trunc _ _ | .align _ | .cmp _ _ => false

/-- R67's column "outputs" lists `s`. -/
def listsScalar : Instr → Bool
  | .low64 _ | .align _ | .cmp _ _ => true
  | .load _ | .loadv _ _ | .fromint _ | .fromf64 _ | .msb _ => false
  | .add _ _ | .sub _ _ | .ainv _ | .not _ | .mul _ _ | .div _ _ => false
  | .ssl _ _ | .ssr _ _ | .lsl _ _ | .lsr _ _ | .asr _ _ | .trunc _ _ => false
  | .eq _ _ | .ne _ _ | .gt _ _ | .ge _ _ | .lt _ _ | .le _ _ => false

/-- Which ports each format reads besides `op` (R65). -/
def Reads.a : Format → Bool
  | .a | .ab | .ac | .an => true
  | .n | .f | .v => false

/-- The formats that read `b` (R61, R65). -/
def Reads.b : Format → Bool
  | .ab => true
  | .a | .ac | .an | .n | .f | .v => false

/-- The formats that read `n` (R61, R65). -/
def Reads.n : Format → Bool
  | .an | .n | .v => true
  | .a | .ab | .ac | .f => false

/-- The formats that read `cin` (R61, R65). -/
def Reads.cin : Format → Bool
  | .ac => true
  | .a | .ab | .an | .n | .f | .v => false

/-- The formats that read `f` (R61, R65). -/
def Reads.f : Format → Bool
  | .f => true
  | .a | .ab | .ac | .an | .n | .v => false

/-- The formats that read `vec` and `len` (R61, R65). -/
def Reads.vec : Format → Bool
  | .v => true
  | .a | .ab | .ac | .an | .n | .f => false

/-! ### Integer arithmetic of the closed forms -/

/-- The integer of the five words from `k` on, each at its limb's weight (R42, R43). -/
def wordSum (vec : List VecWord) (k : Nat) : Nat :=
  (vec.getD k 0).toNat + (vec.getD (k + 1) 0).toNat * 2 ^ 28 + (vec.getD (k + 2) 0).toNat * 2 ^ 56
    + (vec.getD (k + 3) 0).toNat * 2 ^ 84 + (vec.getD (k + 4) 0).toNat * 2 ^ 112

/-- The five words from `k` on fit their limbs (R102). -/
def wordsInRange (vec : List VecWord) (k : Nat) : Prop :=
  (∀ j < 4, (vec.getD (k + j) 0).toNat < 2 ^ 28) ∧ (vec.getD (k + 4) 0).toNat < 2

/-- The biased exponent of a binary64 pattern, bits 62 to 52 of it as an integer (R45). -/
def exponentOf (f : Scalar) : Nat := f.toNat / 2 ^ 52 % 2 ^ 11

/-- The fraction of a binary64 pattern, bits 51 to 0 of it as an integer (R45). -/
def fractionOf (f : Scalar) : Nat := f.toNat % 2 ^ 52

/-- The number a finite binary64 pattern stands for, exactly, with bit 63 its sign (R45, R104,
93_implementation_defined.md G1). -/
def binary64 (f : Scalar) : ℚ :=
  (if 2 ^ 63 ≤ f.toNat then -1 else 1) *
    (if exponentOf f = 0 then (fractionOf f : ℚ) * 2 ^ (-1074 : ℤ)
     else (2 ^ 52 + (fractionOf f : ℚ)) * 2 ^ ((exponentOf f : ℤ) - 1075))

/-- The binary64 number is not in [0, 2): a NaN, an infinity, a negative number or one of 2 and more (R104, R222). -/
def outsideRange (f : Scalar) : Prop := exponentOf f = 0x7FF ∨ binary64 f < 0 ∨ 2 ≤ binary64 f

/-- How far a value's integer stands from having bit 112 set; 0 for 0 (R178). -/
def alignShift (v : Nat) : Nat := if v = 0 then 0 else 112 - v.log2

/-- The aligned integer (R178). -/
def aligned (v : Nat) : Nat := v * 2 ^ alignShift v

/-- One iteration of DIV's loop on integers, the running dividend cut to 113 bits (R151). -/
def divIter (B : Nat) (AQ : Nat × Nat) : Nat × Nat :=
  if B ≤ AQ.1 then (2 * (AQ.1 - B) % 2 ^ 113, 2 * AQ.2 + 1) else (2 * AQ.1 % 2 ^ 113, 2 * AQ.2)

/-- The raw quotient of DIV's loop on aligned integers (R151). -/
def divQuotient (A B : Nat) : Nat := ((divIter B)^[113] (A, 0)).2

/-- The rescale of a raw quotient (R154): right by `aShift − bShift`, or left modulo 2^113. -/
def divScale (Q aShift bShift : Nat) : Nat :=
  if bShift ≤ aShift then Q / 2 ^ (aShift - bShift) else Q * 2 ^ (bShift - aShift) % 2 ^ 113

/-- What is left of the running dividend after the compare-subtract of iteration `k + 1` (R153). -/
def divRemainder (A B k : Nat) : Nat :=
  let r := ((divIter B)^[k] (A, 0)).1
  if B ≤ r then r - B else r

/-- No iteration 1..112 is lossy: none leaves a remainder of 2^112 or more (R153). -/
def noLossyIteration (A B : Nat) : Prop := ∀ k < 112, divRemainder A B k < 2 ^ 112

/-! ### What a response must be -/

/-- The response is an OK response that carries a value of this integer alone. -/
def givesValue (resp : Response) (v : Nat) : Prop := ∃ r, resp = .value r ∧ r.V = v

/-- The response is an OK response that carries a value of this integer and this flag. -/
def givesValueFlag (resp : Response) (v c : Nat) : Prop := ∃ r f, resp = .valueFlag r f ∧ r.V = v ∧ f.toNat = c

/-- The response is an OK response that carries the truth value of `p` alone. -/
def givesTruth (resp : Response) (p : Prop) : Prop := (p → resp = .flag 1) ∧ (¬ p → resp = .flag 0)

/-- The causes of the faults (R222). -/
def causes : Instr → Fault → Prop
  | .loadv n vec, f => f = .invalidArgument ∧ (n < 0 ∨ n + 5 > (vec.length : Int))
  | .lsl _ n, f => f = .invalidArgument ∧ n ≤ 0
  | .lsr _ n, f => f = .invalidArgument ∧ n < 0
  | .asr _ n, f => f = .invalidArgument ∧ n < 0
  | .trunc _ n, f => f = .invalidArgument ∧ n < 0
  | .fromint n, f => f = .overflow ∧ n ≠ 0 ∧ n ≠ 1
  | .fromf64 x, f => f = .overflow ∧ outsideRange x
  | .div _ b, f => f = .divisionByZero ∧ b = Value.zero
  | .load _, _ | .msb _, _ | .low64 _, _ | .add _ _, _ | .sub _ _, _ | .ainv _, _ | .not _, _ | .mul _ _, _ => False
  | .ssl _ _, _ | .ssr _ _, _ | .align _, _ | .cmp _ _, _ => False
  | .eq _ _, _ | .ne _ _, _ | .gt _ _, _ | .ge _ _, _ | .lt _ _, _ | .le _ _, _ => False

/-- The OK responses, by the closed form of each operation's rule (R101 to R206). -/
def computes (i : Instr) (resp : Response) : Prop :=
  match i with
  | .load a => resp = .value a
  | .loadv n vec => wordsInRange vec n.toNat ∧ givesValue resp (wordSum vec n.toNat)
  | .fromint n => givesValue resp (n.toNat * 2 ^ 112)
  | .fromf64 f => givesValue resp ⌊binary64 f * 2 ^ 112⌋.toNat
  | .msb a => givesTruth resp (2 ^ 112 ≤ a.V)
  | .low64 a => resp = .scalar (BitVec.ofNat 64 (a.V % 2 ^ 64))
  | .add a b => givesValueFlag resp ((a.V + b.V) % 2 ^ 113) ((a.V + b.V) / 2 ^ 113)
  | .sub a b => givesValueFlag resp ((2 ^ 113 + a.V - b.V) % 2 ^ 113) (if a.V < b.V then 1 else 0)
  | .ainv a => givesValueFlag resp ((2 ^ 113 - a.V) % 2 ^ 113) (if a.V = 0 then 1 else 0)
  | .not a => givesValue resp (2 ^ 113 - 1 - a.V)
  | .mul a b => givesValueFlag resp (a.V * b.V / 2 ^ 112 % 2 ^ 113) (a.V * b.V / 2 ^ 112 / 2 ^ 113)
  | .div a b =>
    givesValue resp (divScale (divQuotient (aligned a.V) (aligned b.V)) (alignShift a.V) (alignShift b.V))
  | .ssl a cin => givesValue resp ((2 * a.V + cin.toNat) % 2 ^ 113)
  | .ssr a cin => givesValue resp (a.V / 2 + cin.toNat * 2 ^ 112)
  | .lsl a n => givesValue resp (a.V * 2 ^ n.toNat % 2 ^ 113)
  | .lsr a n => givesValue resp (a.V / 2 ^ n.toNat)
  | .asr a n => givesValue resp
      (a.V / 2 ^ n.toNat + if 2 ^ 112 ≤ a.V then 2 ^ 113 - 2 ^ (113 - n.toNat) else 0)
  | .trunc a n => givesValue resp (a.V - a.V % 2 ^ n.toNat)
  | .align a => ∃ r, resp = .valueScalar r (BitVec.ofNat 64 (alignShift a.V)) ∧ r.V = aligned a.V
  | .cmp a b => (a.V < b.V → resp = .scalar 0xFFFFFFFFFFFFFFFF) ∧ (a.V = b.V → resp = .scalar 0) ∧
      (b.V < a.V → resp = .scalar 1)
  | .eq a b => givesTruth resp (a.V = b.V)
  | .ne a b => givesTruth resp (a.V ≠ b.V)
  | .gt a b => givesTruth resp (a.V > b.V)
  | .ge a b => givesTruth resp (a.V ≥ b.V)
  | .lt a b => givesTruth resp (a.V < b.V)
  | .le a b => givesTruth resp (a.V ≤ b.V)

/-- The response is the one the operation's rule gives (R100): the fault where R222 names a cause, and the closed
form's outputs where it names none. -/
def meetsRule (i : Instr) (resp : Response) : Prop :=
  (∃ f, causes i f ∧ resp = .fault f) ∨ ((∀ f, ¬ causes i f) ∧ computes i resp)

/-- Every pair of the trace is a command the ports can carry and the response its rule gives (R66: "each pair
satisfies the rule of its operation"). -/
def traceMeetsRules (s : State) : Prop := ∀ p ∈ s.trace, p.1.wellFormed = true ∧ meetsRule p.1 p.2

end Sys2Proof.Safety
end

