-- ==== Sys2Proof/Certificates/Slice0/Obligations.lean ====
section
/-! DEFINITION. The statements about the core, from the rules of the spec. A statement about an operation says first that
a command with its operation code decodes to it and takes its operands from the ports of its format, and then what the
core answers: an equation whose right side is the next state, so that everything `respond` does not change is unchanged. -/

open Sys2Proof Sys2Proof.Machine Sys2Proof.Safety

/-! ### Reset, steps and responses -/

/-- R33, R250: after reset no command is presented and the trace is empty. -/
def Obligations.ResetLeavesEmptyTrace : Prop :=
  State.reset.pending = [] ∧ State.reset.trace = []

/-- A step runs the instruction that the presented command decodes to, on the machine without that command (R60, R66). -/
def Obligations.StepRunsPresentedCommand : Prop :=
  ∀ (s : State) (c : Command) (rest : List Command) (i : Instr),
    s.pending = c :: rest → decode c = .ok i → step s = exec i { s with pending := rest }

/-- The model's choice (log entry 1): with no command presented a step changes nothing. -/
def Obligations.StepWaitsForCommand : Prop :=
  ∀ s : State, s.pending = [] → step s = .next s

/-- A word of the opcode table, placed where the step takes its next command, runs as the instruction the decoder reads
from it (log entry 2). -/
def Obligations.PlacedTableWordRunsNext : Prop :=
  ∀ (s : State) (nbits w : Nat) (i : Instr),
    decodeTableWord nbits w = some i → step (s.withFetchWord nbits w) = exec i s

/-- R60: the core accepts a command and returns exactly one response to it; it does nothing else. That it does nothing at
all without a command is the model's choice (log entry 1). -/
def Obligations.StepGivesOneResponse : Prop :=
  ∀ s t : State, step s = .next t →
    (s.pending = [] ∧ t = s) ∨
    ∃ c i resp, s.pending = c :: t.pending ∧ decode c = .ok i ∧ t.trace = s.trace ++ [(i, resp)]

/-- The frame of all 26 operations (R25 to R32): the commands still to come are unchanged and every earlier pair of the
trace is unchanged; one pair for this operation joins it. There is no other state and no memory. -/
def Obligations.OperationFrame : Prop :=
  ∀ (i : Instr) (s t : State), exec i s = .next t →
    t.pending = s.pending ∧ ∃ resp, t.trace = s.trace ++ [(i, resp)]

/-- R16: the same instruction gets the same response in every state, or is refused in every state. -/
def Obligations.ResponseIsFunctionOfCommand : Prop :=
  ∀ (i : Instr) (s : State),
    (∀ resp, responseTo i = some resp → exec i s = .next (respond i resp s)) ∧
    (responseTo i = none → ∃ ρ, exec i s = .refused ρ)

/-- From R50 and R66: a stream of commands none of which is refused is answered one by one in the order issued, each with
the response its own instruction determines, whatever came before, whatever comes after and whatever the ports hold that
a command does not read. The stream as a list in State and the trace are the model's choices (log entries 8 and 9). -/
def Obligations.RunAnswersInOrder : Prop :=
  ∀ (commands more : List Command) (pairs before : List (Instr × Response)),
    List.Forall₂ (fun c p => decode c = .ok p.1 ∧ responseTo p.1 = some p.2) commands pairs →
    Host.Core.run Sys2Proof.core commands.length (⟨commands ++ more, before⟩ : State) =
      .next (⟨more, before ++ pairs⟩ : State)

/-- R32: a fault response carries no value, flag or scalar, and the next command behaves as if the faulted one had never
been issued. -/
def Obligations.FaultLeavesNothingBehind : Prop :=
  ∀ (i : Instr) (f : Fault) (s : State), exec i s = .next (respond i (.fault f) s) →
    (Response.fault f).r = none ∧ (Response.fault f).c = none ∧ (Response.fault f).s = none ∧
    ∀ (j : Instr) (resp : Response),
      exec j (respond i (.fault f) s) = .next (respond j resp (respond i (.fault f) s)) ↔
        exec j s = .next (respond j resp s)

/-- Nothing stops the core with a fault (R229, R230): a fault is a response. -/
def Obligations.NoStepStopsOnFault : Prop :=
  ∀ (s : State) (f : Fault), step s ≠ .fault f

/-- From R227: a step refuses exactly the six reserved operation codes, and LOADV with a good offset and a word too large
for its limb. That a refusal is an outcome of the run, and the name it carries, are the model's choice (log entry 14). -/
def Obligations.ExactlyTwoRefusals : Prop :=
  ∀ (s : State) (ρ : Refusal), step s = .refused ρ ↔
    ∃ c rest, s.pending = c :: rest ∧
      ((c.op ∈ reservedCodes ∧ ρ = .reservedOperation c.op) ∨
       (c.op = 0x02 ∧ 0 ≤ c.n.toInt ∧ c.n.toInt + 5 ≤ (c.vec.length : Int) ∧
         ¬ wordsInRange c.vec c.n.toInt.toNat ∧ ρ = .limbOutOfRange))

/-- R69: the six reserved codes, and no others, select no operation, and a command with one is refused (the name of the
refusal is log entry 14). -/
def Obligations.ReservedCodesSelectNothing : Prop :=
  ∀ c : Command,
    (c.op ∈ reservedCodes ↔ ∀ i, decode c ≠ .ok i) ∧
    (c.op ∈ reservedCodes → ∀ s, step (presentCommand c s) = .refused (.reservedOperation c.op))

/-- R222: an operation raises a fault exactly when the table of causes says so; the other 18 never do. -/
def Obligations.FaultsExactlyOnTheirCauses : Prop :=
  ∀ (i : Instr) (f : Fault) (s : State), exec i s = .next (respond i (.fault f) s) ↔ causes i f

/-- From R64: an OK response carries exactly the outputs R67 lists, any other the status alone. That the bits of the word
`RW` for an output not carried are those of a filler word `u`, for every `u`, is the model's choice (log entry 3): R64
says that these bits may be anything. -/
def Obligations.ResponsesCarryListedOutputs : Prop :=
  ∀ (i : Instr) (s : State) (resp : Response) (u : BitVec 180), exec i s = .next (respond i resp s) →
    (resp.status = 0 →
      resp.r.isSome = listsValue i ∧ resp.c.isSome = listsFlag i ∧ resp.s.isSome = listsScalar i) ∧
    (resp.status ≠ 0 → resp.r = none ∧ resp.c = none ∧ resp.s = none) ∧
    (resp.r = none → (resp.word u).extractLsb' 3 113 = u.extractLsb' 3 113) ∧
    (resp.c = none → (resp.word u).extractLsb' 2 1 = u.extractLsb' 2 1) ∧
    (resp.s = none → (resp.word u).extractLsb' 116 64 = u.extractLsb' 116 64)

/-- R221: the status codes. -/
def Obligations.StatusCodes : Prop :=
  (∀ r, (Response.value r).status = 0) ∧ (∀ r c, (Response.valueFlag r c).status = 0) ∧
  (∀ r s, (Response.valueScalar r s).status = 0) ∧ (∀ c, (Response.flag c).status = 0) ∧
  (∀ s, (Response.scalar s).status = 0) ∧ (Response.fault .invalidArgument).status = 1 ∧
  (Response.fault .overflow).status = 2 ∧ (Response.fault .divisionByZero).status = 3

/-- R63: the places of the outputs in the flat response word. -/
def Obligations.ResponseWordLayout : Prop :=
  ∀ (resp : Response) (u : BitVec 180),
    (resp.word u).extractLsb' 0 2 = resp.status ∧
    (∀ c, resp.c = some c → (resp.word u).extractLsb' 2 1 = c) ∧
    (∀ r, resp.r = some r → ∀ i < 113, (resp.word u).getLsbD (3 + i) = r.bit i) ∧
    (∀ x, resp.s = some x → (resp.word u).extractLsb' 116 64 = x)

/-- R66, R100: every step keeps this, that each pair of the trace is a command the ports can carry and the response the
rule of its operation gives, closed form and fault causes alike. -/
def Obligations.StepKeepsTraceToItsRules : Prop :=
  ∀ s t : State, traceMeetsRules s → step s = .next t → traceMeetsRules t

/-- The empty trace after reset meets the rules. -/
def Obligations.ResetTraceMeetsRules : Prop := traceMeetsRules State.reset

/-! ### Commands and their words -/

/-- R62: the places of the ports in the flat command word; `vec` is not part of it. -/
def Obligations.CommandWordLayout : Prop :=
  ∀ c : Command,
    (packWord c).extractLsb' 0 5 = c.op ∧ (packWord c).extractLsb' 5 1 = c.cin ∧
    (packWord c).extractLsb' 6 32 = c.n ∧
    (∀ i < 113, (packWord c).getLsbD (38 + i) = c.a.bit i) ∧
    (∀ i < 113, (packWord c).getLsbD (151 + i) = c.b.bit i) ∧
    (packWord c).extractLsb' 264 64 = c.f ∧
    ∀ vec, packWord { c with vec := vec } = packWord c

/-- The ports and the flat command word with its list of words carry the same bits: each is got back from the other
(R62). -/
def Obligations.CommandWordInverse : Prop :=
  (∀ c : Command, unpackWord (packWord c) c.vec = c) ∧
  ∀ (cw : BitVec 328) (vec : List VecWord), packWord (unpackWord cw vec) = cw

/-- Decode and encode agree: the flat word and the list of words of every well-formed instruction decode to it, whatever
its operands (R62, R65, R67). -/
def Obligations.DecodeEncodeCommandWord : Prop :=
  ∀ i : Instr, i.wellFormed = true → decodeWord (packWord (encode i)) (encode i).vec = .ok i

/-- What the decoder gives is well-formed, has the operation code and the format of the command, and is got back from
the ports the encoder sets for it. -/
def Obligations.DecodedIsWellFormed : Prop :=
  ∀ (c : Command) (i : Instr), decode c = .ok i →
    i.wellFormed = true ∧ i.code = c.op ∧ formatOf c.op = some i.format ∧ decode (encode i) = .ok i

/-- R68: the decoder looks at `op` and nothing else to choose the operation, every code is one operation or reserved, and
ports outside the format make no difference. -/
def Obligations.DecodeIgnoresUnreadPorts : Prop :=
  (∀ c : Command,
    (∃ i, decode c = .ok i ∧ i.code = c.op) ∨
      (c.op ∈ reservedCodes ∧ decode c = .error (.reservedOperation c.op))) ∧
  ∀ (c c' : Command) (fmt : Format), c.op = c'.op → formatOf c.op = some fmt →
    (Reads.a fmt = true → c.a = c'.a) → (Reads.b fmt = true → c.b = c'.b) →
    (Reads.n fmt = true → c.n = c'.n) → (Reads.cin fmt = true → c.cin = c'.cin) →
    (Reads.f fmt = true → c.f = c'.f) → (Reads.vec fmt = true → c.vec = c'.vec) →
    decode c = decode c'

/-- Flat command words of the spec's own programs (95_test_vectors.md section 3) decode to the commands printed beside
them. -/
def Obligations.DecodesWordsOfTheSpec : Prop :=
  decodeWord 0x0000000000000000400000000000000000000000000020000000000000000000000000000000000008 [] =
    .ok (.add Value.half Value.half) ∧
  decodeWord 0x0000000000000000000000000000000000000000000000000000000000000000000000003FFFFFFFC3 [] =
    .ok (.fromint (-1)) ∧
  decodeWord 0x3FF8000000000000000000000000000000000000000000000000000000000000000000000000000004 [] =
    .ok (.fromf64 0x3FF8000000000000) ∧
  decodeWord 0x000000000000000000000000000000000000000000006AF37BC048D159E26AF37BC048D14000001515 [] =
    .ok (.trunc ⟨0xF012345, 0x89ABCDE, 0x1234567, 0xABCDEF0, 1⟩ 84) ∧
  decodeWord 0x0000000000000000000000000000000000000000000008000000000000000000000000000000000010 [] =
    .ok (.ssl ⟨0, 0, 0, 0x2000000, 0⟩ 0) ∧
  decodeWord 0x000000000000000000000000000000000000000000000000000000000000000000000000000000001F [] =
    .error (.reservedOperation 0x1F)

/-! ### Construction, conversion and queries -/

/-- R101: LOAD is the identity on its limbs. -/
def Obligations.LoadKeepsLimbs : Prop :=
  (∀ c : Command, c.op = 0x01 → decode c = .ok (.load c.a)) ∧
  ∀ (a : Value) (s : State), exec (.load a) s = .next (respond (.load a) (.value a) s)

/-- R102: LOADV reads the five words from its offset into the five limbs; a bad offset faults before any word is looked
at, and a word too large for its limb is refused (the name of the refusal is log entry 14). -/
def Obligations.LoadvReadsFiveWords : Prop :=
  (∀ c : Command, c.op = 0x02 → decode c = .ok (.loadv c.n.toInt c.vec)) ∧
  ∀ (n : Int) (vec : List VecWord) (s : State),
    (n < 0 ∨ n + 5 > (vec.length : Int) →
      exec (.loadv n vec) s = .next (respond (.loadv n vec) (.fault .invalidArgument) s)) ∧
    (0 ≤ n → n + 5 ≤ (vec.length : Int) → wordsInRange vec n.toNat →
      ∃ r, exec (.loadv n vec) s = .next (respond (.loadv n vec) (.value r) s) ∧
        r.w0.toNat = (vec.getD n.toNat 0).toNat ∧ r.w1.toNat = (vec.getD (n.toNat + 1) 0).toNat ∧
        r.w2.toNat = (vec.getD (n.toNat + 2) 0).toNat ∧ r.w3.toNat = (vec.getD (n.toNat + 3) 0).toNat ∧
        r.w4.toNat = (vec.getD (n.toNat + 4) 0).toNat) ∧
    (0 ≤ n → n + 5 ≤ (vec.length : Int) → ¬ wordsInRange vec n.toNat →
      exec (.loadv n vec) s = .refused .limbOutOfRange)

/-- R103: FROMINT maps 0 to `Zero` and 1 to `One`, and faults on every other integer. -/
def Obligations.FromintZeroAndOne : Prop :=
  (∀ c : Command, c.op = 0x03 → decode c = .ok (.fromint c.n.toInt)) ∧
  ∀ s : State,
    exec (.fromint 0) s = .next (respond (.fromint 0) (.value Value.zero) s) ∧
    exec (.fromint 1) s = .next (respond (.fromint 1) (.value Value.one) s) ∧
    ∀ n : Int, n ≠ 0 → n ≠ 1 → exec (.fromint n) s = .next (respond (.fromint n) (.fault .overflow) s)

/-- R104: FROMF64 gives the integer part of x·2^112, truncated, for a binary64 number x in [0, 2), minus zero included, and
faults on every other pattern. -/
def Obligations.Fromf64TruncatesNumber : Prop :=
  (∀ c : Command, c.op = 0x04 → decode c = .ok (.fromf64 c.f)) ∧
  ∀ (f : Scalar) (s : State),
    (outsideRange f → exec (.fromf64 f) s = .next (respond (.fromf64 f) (.fault .overflow) s)) ∧
    (¬ outsideRange f → ∃ r, exec (.fromf64 f) s = .next (respond (.fromf64 f) (.value r) s) ∧
      (r.V : ℤ) = ⌊binary64 f * 2 ^ 112⌋)

/-- R106: MSB returns `w4`, which is 1 exactly for the values of 1.0 and more. -/
def Obligations.MsbTellsAtLeastOne : Prop :=
  (∀ c : Command, c.op = 0x05 → decode c = .ok (.msb c.a)) ∧
  ∀ (a : Value) (s : State),
    exec (.msb a) s = .next (respond (.msb a) (.flag a.w4) s) ∧ (a.w4 = 1 ↔ 1 ≤ a.val)

/-- R107: LOW64 returns bits 63..0 of V. -/
def Obligations.Low64IsLowBits : Prop :=
  (∀ c : Command, c.op = 0x06 → decode c = .ok (.low64 c.a)) ∧
  ∀ (a : Value) (s : State), ∃ x : Scalar,
    exec (.low64 a) s = .next (respond (.low64 a) (.scalar x) s) ∧ x.toNat = a.V % 2 ^ 64

/-! ### Addition, complement, negation, subtraction -/

/-- R121: ADD is addition modulo 2^113 with the carry-out. -/
def Obligations.AddWrapsWithCarry : Prop :=
  (∀ c : Command, c.op = 0x08 → decode c = .ok (.add c.a c.b)) ∧
  ∀ (a b : Value) (s : State), ∃ r c,
    exec (.add a b) s = .next (respond (.add a b) (.valueFlag r c) s) ∧
    r.V = (a.V + b.V) % 2 ^ 113 ∧ c.toNat = (a.V + b.V) / 2 ^ 113

/-- R122: NOT inverts all 113 bits. -/
def Obligations.NotComplementsAllBits : Prop :=
  (∀ c : Command, c.op = 0x0B → decode c = .ok (.not c.a)) ∧
  ∀ (a : Value) (s : State), ∃ r,
    exec (.not a) s = .next (respond (.not a) (.value r) s) ∧ r.V = 2 ^ 113 - 1 - a.V ∧
    ∀ i < 113, r.bit i = !a.bit i

/-- R123: AINV is the additive inverse modulo 2^113, with carry 1 for `Zero` alone. -/
def Obligations.AinvNegatesWithCarry : Prop :=
  (∀ c : Command, c.op = 0x0A → decode c = .ok (.ainv c.a)) ∧
  ∀ (a : Value) (s : State), ∃ r c,
    exec (.ainv a) s = .next (respond (.ainv a) (.valueFlag r c) s) ∧
    r.V = (2 ^ 113 - a.V) % 2 ^ 113 ∧ (c = 1 ↔ a.V = 0)

/-- R124: SUB is subtraction modulo 2^113 with the borrow-out. -/
def Obligations.SubWrapsWithBorrow : Prop :=
  (∀ c : Command, c.op = 0x09 → decode c = .ok (.sub c.a c.b)) ∧
  ∀ (a b : Value) (s : State), ∃ r c,
    exec (.sub a b) s = .next (respond (.sub a b) (.valueFlag r c) s) ∧
    (r.V : ℤ) = ((a.V : ℤ) - b.V) % 2 ^ 113 ∧ (c = 1 ↔ a.V < b.V)

/-- R259: the carry of SUB's inner addition is the complement of the borrow for every subtrahend but `Zero`, where both
are 0; so the borrow is not to be had from it. -/
def Obligations.SubBorrowNotFromAdder : Prop :=
  ∀ a b : Value,
    (b ≠ Value.zero → (fxAdd a (fxAInv b).1).2 = 1 - (fxSub a b).2) ∧
    (b = Value.zero → (fxAdd a (fxAInv b).1).2 = 0 ∧ (fxSub a b).2 = 0)

/-- R126: subtracting and adding back gives the value again, with the carry equal to the borrow. -/
def Obligations.SubThenAddRestores : Prop :=
  ∀ (a b d : Value) (c : Bit), responseTo (.sub a b) = some (.valueFlag d c) →
    responseTo (.add d b) = some (.valueFlag a c)

/-- R126, R144: ADD and MUL commute in both outputs. -/
def Obligations.AddAndMulCommute : Prop :=
  ∀ a b : Value, responseTo (.add a b) = responseTo (.add b a) ∧ responseTo (.mul a b) = responseTo (.mul b a)

/-! ### Multiplication -/

/-- R141: MUL is the product truncated to a multiple of 2^-112, modulo 2, with the carry-out. -/
def Obligations.MulTruncatesProduct : Prop :=
  (∀ c : Command, c.op = 0x0C → decode c = .ok (.mul c.a c.b)) ∧
  ∀ (a b : Value) (s : State), ∃ r c,
    exec (.mul a b) s = .next (respond (.mul a b) (.valueFlag r c) s) ∧
    r.V = a.V * b.V / 2 ^ 112 % 2 ^ 113 ∧ c.toNat = a.V * b.V / 2 ^ 112 / 2 ^ 113

/-- R142, R143: no accumulator exceeds its bound, and the retained top position is 0 to 3. -/
def Obligations.MulAccumulatorsFit : Prop :=
  ∀ a b : Value, (∀ acc ∈ convolve a b, acc ≤ 0x3FFFFFF80000004) ∧
    ((normalise 0 (convolve a b)).getD 8 0).toNat ≤ 3

/-- R144: `One` is the identity, `Zero` annihilates, and multiplying by `Half` is a right shift by one. -/
def Obligations.MulByConstants : Prop :=
  ∀ x : Value, responseTo (.mul x Value.one) = some (.valueFlag x 0) ∧
    responseTo (.mul x Value.zero) = some (.valueFlag Value.zero 0) ∧
    ∃ r, responseTo (.mul x Value.half) = some (.valueFlag r 0) ∧ responseTo (.lsr x 1) = some (.value r)

/-- R144: the truncated product is never above the exact one, and falls short of it by less than 2^-112. -/
def Obligations.MulErrorBound : Prop :=
  ∀ (a b r : Value) (c : Bit), responseTo (.mul a b) = some (.valueFlag r c) →
    0 ≤ a.val * b.val - (r.val + 2 * (c.toNat : ℚ)) ∧ a.val * b.val - (r.val + 2 * (c.toNat : ℚ)) < 1 / 2 ^ 112

/-! ### Division -/

/-- R151: DIV faults on the divisor `Zero`, and otherwise returns the rescaled quotient of 113 compare-subtract-shift
iterations on the aligned operands, the running dividend cut to 113 bits in each. The cut is the spec's own decision D25
and its resolution of conflict C1. -/
def Obligations.DivRunsIntegerLoop : Prop :=
  (∀ c : Command, c.op = 0x0D → decode c = .ok (.div c.a c.b)) ∧
  (∀ (a : Value) (s : State),
    exec (.div a Value.zero) s = .next (respond (.div a Value.zero) (.fault .divisionByZero) s)) ∧
  ∀ (a b : Value) (s : State), b ≠ Value.zero → ∃ r,
    exec (.div a b) s = .next (respond (.div a b) (.value r) s) ∧
    r.V = divScale (divQuotient (aligned a.V) (aligned b.V)) (alignShift a.V) (alignShift b.V)

/-- R153: without a lossy iteration DIV returns the true truncated quotient of the aligned operands, rescaled. -/
def Obligations.DivExactWithoutLossyIteration : Prop :=
  ∀ (a b : Value) (s : State), b ≠ Value.zero → noLossyIteration (aligned a.V) (aligned b.V) → ∃ r,
    exec (.div a b) s = .next (respond (.div a b) (.value r) s) ∧
    r.V = divScale (aligned a.V * 2 ^ 112 / aligned b.V) (alignShift a.V) (alignShift b.V)

/-- R154: dividing by a power of two is exact modulo 2^113. -/
def Obligations.DivByPowerOfTwo : Prop :=
  ∀ (a b : Value) (j : Nat) (s : State), b.V = 2 ^ j → ∃ r,
    exec (.div a b) s = .next (respond (.div a b) (.value r) s) ∧ r.V = a.V * 2 ^ (112 - j) % 2 ^ 113

/-- R154: a value divided by itself is `One`, and `Zero` divided by anything but `Zero` is `Zero`. -/
def Obligations.DivSelfAndZero : Prop :=
  ∀ (x : Value) (s : State), x ≠ Value.zero →
    exec (.div x x) s = .next (respond (.div x x) (.value Value.one) s) ∧
    exec (.div Value.zero x) s = .next (respond (.div Value.zero x) (.value Value.zero) s)

/-! ### Shifts and bit operations -/

/-- R171: SSL doubles modulo 2^113 with the carry-in at bit 0; bit 112 is lost. -/
def Obligations.SslShiftsLeftByOne : Prop :=
  (∀ c : Command, c.op = 0x10 → decode c = .ok (.ssl c.a c.cin)) ∧
  ∀ (a : Value) (cin : Bit) (s : State), ∃ r,
    exec (.ssl a cin) s = .next (respond (.ssl a cin) (.value r) s) ∧
    r.V = (2 * a.V + cin.toNat) % 2 ^ 113 ∧ (r.bit 0 = true ↔ cin = 1) ∧
    ∀ i, 1 ≤ i → i ≤ 112 → r.bit i = a.bit (i - 1)

/-- R172: SSR halves with the carry-in at bit 112; bit 0 is lost. -/
def Obligations.SsrShiftsRightByOne : Prop :=
  (∀ c : Command, c.op = 0x11 → decode c = .ok (.ssr c.a c.cin)) ∧
  ∀ (a : Value) (cin : Bit) (s : State), ∃ r,
    exec (.ssr a cin) s = .next (respond (.ssr a cin) (.value r) s) ∧
    r.V = a.V / 2 + cin.toNat * 2 ^ 112 ∧ (r.bit 112 = true ↔ cin = 1) ∧
    ∀ i ≤ 111, r.bit i = a.bit (i + 1)

/-- R174: LSL by n, with a count of 0 or less an invalid argument and 113 or more giving `Zero`. -/
def Obligations.LslShiftsLeft : Prop :=
  (∀ c : Command, c.op = 0x12 → decode c = .ok (.lsl c.a c.n.toInt)) ∧
  ∀ (a : Value) (n : Int) (s : State),
    (n ≤ 0 → exec (.lsl a n) s = .next (respond (.lsl a n) (.fault .invalidArgument) s)) ∧
    (0 < n → ∃ r, exec (.lsl a n) s = .next (respond (.lsl a n) (.value r) s) ∧
      r.V = a.V * 2 ^ n.toNat % 2 ^ 113 ∧ (113 ≤ n → r = Value.zero))

/-- R175: LSR by n, with a negative count an invalid argument, 0 the identity and 113 or more giving `Zero`. -/
def Obligations.LsrShiftsRight : Prop :=
  (∀ c : Command, c.op = 0x13 → decode c = .ok (.lsr c.a c.n.toInt)) ∧
  ∀ (a : Value) (n : Int) (s : State),
    (n < 0 → exec (.lsr a n) s = .next (respond (.lsr a n) (.fault .invalidArgument) s)) ∧
    (0 ≤ n → ∃ r, exec (.lsr a n) s = .next (respond (.lsr a n) (.value r) s) ∧
      r.V = a.V / 2 ^ n.toNat ∧ (n = 0 → r = a) ∧ (113 ≤ n → r = Value.zero))

/-- R176: ASR by n fills with the original Msb; a negative count is an invalid argument. -/
def Obligations.AsrReplicatesMsb : Prop :=
  (∀ c : Command, c.op = 0x14 → decode c = .ok (.asr c.a c.n.toInt)) ∧
  ∀ (a : Value) (n : Int) (s : State),
    (n < 0 → exec (.asr a n) s = .next (respond (.asr a n) (.fault .invalidArgument) s)) ∧
    (0 ≤ n → ∃ r, exec (.asr a n) s = .next (respond (.asr a n) (.value r) s) ∧
      (n ≤ 112 → r.V = a.V / 2 ^ n.toNat + a.msb.toNat * (2 ^ 113 - 2 ^ (113 - n.toNat))) ∧
      (113 ≤ n → r = if a.msb = 1 then Value.max else Value.zero))

/-- R177: TRUNC clears the low n bits where they stand; a negative count is an invalid argument. -/
def Obligations.TruncClearsLowBits : Prop :=
  (∀ c : Command, c.op = 0x15 → decode c = .ok (.trunc c.a c.n.toInt)) ∧
  ∀ (a : Value) (n : Int) (s : State),
    (n < 0 → exec (.trunc a n) s = .next (respond (.trunc a n) (.fault .invalidArgument) s)) ∧
    (0 ≤ n → ∃ r, exec (.trunc a n) s = .next (respond (.trunc a n) (.value r) s) ∧
      r.V = a.V - a.V % 2 ^ n.toNat ∧ (113 ≤ n → r = Value.zero) ∧
      ∀ i, r.bit i = (decide (n ≤ (i : Int)) && a.bit i))

/-- R178: ALIGN moves a value up until its Msb is 1 and returns the count; `Zero` stays with count 0. LSR with that count
gives the value back. -/
def Obligations.AlignSetsMsb : Prop :=
  (∀ c : Command, c.op = 0x16 → decode c = .ok (.align c.a)) ∧
  ∀ (a : Value) (s : State), ∃ r k,
    exec (.align a) s = .next (respond (.align a) (.valueScalar r (BitVec.ofNat 64 k)) s) ∧
    k ≤ 112 ∧ r.V = a.V * 2 ^ k ∧ (a = Value.zero → k = 0) ∧
    (a ≠ Value.zero → r.msb = 1 ∧ k = 112 - a.V.log2) ∧ responseTo (.lsr r k) = some (.value a)

/-- R179: right then left truncates; left then right keeps the low 113 − n bits. -/
def Obligations.ShiftRoundTrips : Prop :=
  ∀ (x : Value) (n : Int), 0 < n → n < 113 →
    (∃ y, responseTo (.lsr x n) = some (.value y) ∧ responseTo (.lsl y n) = responseTo (.trunc x n)) ∧
    (∃ y, responseTo (.lsl x n) = some (.value y) ∧
      responseTo (.lsr y n) = some (.value (Value.ofV (x.V % 2 ^ (113 - n.toNat)))))

/-- R179: adding a value to itself is SSL with the discarded bit on the flag. -/
def Obligations.AddSelfExposesDiscardedBit : Prop :=
  ∀ x : Value, ∃ r, responseTo (.ssl x 0) = some (.value r) ∧
    responseTo (.add x x) = some (.valueFlag r x.msb)

/-! ### Comparison -/

/-- R200: CMP returns −1, 0 or +1 for the order of the integers. -/
def Obligations.CmpIsIntegerOrder : Prop :=
  (∀ c : Command, c.op = 0x18 → decode c = .ok (.cmp c.a c.b)) ∧
  ∀ (a b : Value) (s : State), ∃ x : Scalar,
    exec (.cmp a b) s = .next (respond (.cmp a b) (.scalar x) s) ∧
    (a.V < b.V → x.toInt = -1) ∧ (a.V = b.V → x.toInt = 0) ∧ (a.V > b.V → x.toInt = 1)

/-- R201, R202: EQ and NE are equality of all five limbs, which is equality of the integers. -/
def Obligations.EqAndNeAreEquality : Prop :=
  (∀ c : Command, c.op = 0x19 → decode c = .ok (.eq c.a c.b)) ∧
  (∀ c : Command, c.op = 0x1A → decode c = .ok (.ne c.a c.b)) ∧
  ∀ (a b : Value) (s : State),
    exec (.eq a b) s = .next (respond (.eq a b) (.flag (if a = b then 1 else 0)) s) ∧
    exec (.ne a b) s = .next (respond (.ne a b) (.flag (if a = b then 0 else 1)) s) ∧
    (a = b ↔ a.V = b.V)

/-- R203 to R206: GT, GE, LT and LE are the order of the integers. -/
def Obligations.OrderPredicatesAreIntegerOrder : Prop :=
  (∀ c : Command, c.op = 0x1B → decode c = .ok (.gt c.a c.b)) ∧
  (∀ c : Command, c.op = 0x1C → decode c = .ok (.ge c.a c.b)) ∧
  (∀ c : Command, c.op = 0x1D → decode c = .ok (.lt c.a c.b)) ∧
  (∀ c : Command, c.op = 0x1E → decode c = .ok (.le c.a c.b)) ∧
  ∀ (a b : Value) (s : State),
    exec (.gt a b) s = .next (respond (.gt a b) (.flag (if a.V > b.V then 1 else 0)) s) ∧
    exec (.ge a b) s = .next (respond (.ge a b) (.flag (if a.V ≥ b.V then 1 else 0)) s) ∧
    exec (.lt a b) s = .next (respond (.lt a b) (.flag (if a.V < b.V then 1 else 0)) s) ∧
    exec (.le a b) s = .next (respond (.le a b) (.flag (if a.V ≤ b.V then 1 else 0)) s)

/-- R207: exactly one of LT, EQ, GT holds, the other predicates are derived from `>` and `==`, the order is symmetric, the
borrow of SUB is LT, and GE with `One` is MSB. -/
def Obligations.PredicatesAgree : Prop :=
  ∀ a b : Value, ∃ l e g : Bit,
    responseTo (.lt a b) = some (.flag l) ∧ responseTo (.eq a b) = some (.flag e) ∧
    responseTo (.gt a b) = some (.flag g) ∧ l.toNat + e.toNat + g.toNat = 1 ∧
    responseTo (.ge a b) = some (.flag (g ||| e)) ∧ responseTo (.le a b) = some (.flag (1 - g)) ∧
    responseTo (.ne a b) = some (.flag (1 - e)) ∧ responseTo (.gt b a) = some (.flag l) ∧
    (∃ d, responseTo (.sub a b) = some (.valueFlag d l) ∧ (d = Value.zero ↔ e = 1)) ∧
    responseTo (.ge a Value.one) = some (.flag a.msb)
end

