-- ==== Sys2Proof/Laws/Value.lean ====
section
/-! SUPPORT. A value is its integer (R10): `V` is a bijection onto [0, 2^113), and the 113-bit pattern of a value has the
same bits. -/

namespace Sys2Proof

/-- The defining sum of `V` (R9). -/
theorem Value.V_eq (x : Value) : x.V =
    x.w4.toNat * 2 ^ 112 + x.w3.toNat * 2 ^ 84 + x.w2.toNat * 2 ^ 56 + x.w1.toNat * 2 ^ 28 + x.w0.toNat := rfl

theorem Value.V_lt (x : Value) : x.V < 2 ^ 113 := by
  have h0 := x.w0.isLt
  have h1 := x.w1.isLt
  have h2 := x.w2.isLt
  have h3 := x.w3.isLt
  have h4 := x.w4.isLt
  simp only [Value.V]
  omega

/-- Equal integers are equal values (R10, R201). -/
theorem Value.V_inj {x y : Value} : x.V = y.V ↔ x = y := by
  constructor
  · intro h
    obtain ⟨a0, a1, a2, a3, a4⟩ := x
    obtain ⟨b0, b1, b2, b3, b4⟩ := y
    have := a0.isLt
    have := a1.isLt
    have := a2.isLt
    have := a3.isLt
    have := a4.isLt
    have := b0.isLt
    have := b1.isLt
    have := b2.isLt
    have := b3.isLt
    have := b4.isLt
    simp only [Value.V] at h
    simp only [Value.mk.injEq, ← BitVec.toNat_inj]
    omega
  · rintro rfl
    rfl

theorem Value.V_ofV {v : Nat} (h : v < 2 ^ 113) : (Value.ofV v).V = v := by
  simp only [Value.V, Value.ofV, BitVec.toNat_ofNat]
  omega

theorem Value.ofV_V (x : Value) : Value.ofV x.V = x := Value.V_inj.mp (Value.V_ofV x.V_lt)

/-! ### The integers of the constants (R12) -/

theorem Value.V_zero : Value.zero.V = 0 := rfl
theorem Value.V_one : Value.one.V = 2 ^ 112 := rfl
theorem Value.V_ulp : Value.ulp.V = 1 := rfl
theorem Value.V_half : Value.half.V = 2 ^ 111 := rfl
theorem Value.V_max : Value.max.V = 2 ^ 113 - 1 := rfl

/-- `Msb(x) = 1` exactly when `V(x) ≥ 2^112` (R23). -/
theorem Value.w4_toNat (x : Value) : x.w4.toNat = x.V / 2 ^ 112 := by
  have h0 := x.w0.isLt
  have h1 := x.w1.isLt
  have h2 := x.w2.isLt
  have h3 := x.w3.isLt
  simp only [Value.V]
  omega

/-! ### The 113-bit pattern -/

theorem Value.toNat_toBits (x : Value) : x.toBits.toNat = x.V := by
  have h0 := x.w0.isLt
  have h1 := x.w1.isLt
  have h2 := x.w2.isLt
  have h3 := x.w3.isLt
  simp only [Value.toBits, BitVec.toNat_append, Value.V]
  rw [← Nat.shiftLeft_add_eq_or_of_lt h3, ← Nat.shiftLeft_add_eq_or_of_lt h2, ← Nat.shiftLeft_add_eq_or_of_lt h1,
    ← Nat.shiftLeft_add_eq_or_of_lt h0]
  simp only [Nat.shiftLeft_eq]
  omega

theorem Value.V_ofBits (v : BitVec 113) : (Value.ofBits v).V = v.toNat := by
  have := v.isLt
  simp only [Value.V, Value.ofBits, BitVec.extractLsb'_toNat, Nat.shiftRight_eq_div_pow]
  omega

theorem Value.ofBits_toBits (x : Value) : Value.ofBits x.toBits = x := by
  rw [← Value.V_inj, Value.V_ofBits, Value.toNat_toBits]

theorem Value.toBits_ofBits (v : BitVec 113) : (Value.ofBits v).toBits = v := by
  rw [← BitVec.toNat_inj, Value.toNat_toBits, Value.V_ofBits]

end Sys2Proof
end

