-- ==== Sys2Proof/Laws/Arith.lean ====
section
/-! SUPPORT. One lemma for each shared sub-block of the core: what it computes on the integers of its operands. Later
proofs cite these and never unfold the limbs again. -/

namespace Sys2Proof.Machine

/-! ### Flags -/

@[simp] theorem flagOf_true : flagOf true = 1 := rfl
@[simp] theorem flagOf_false : flagOf false = 0 := rfl

theorem flagOf_eq_one {p : Bool} : flagOf p = 1 ↔ p = true := by cases p <;> decide

theorem toNat_flagOf (p : Bool) : (flagOf p).toNat = if p then 1 else 0 := by cases p <;> rfl

theorem flagOf_or (p q : Bool) : flagOf p ||| flagOf q = flagOf (p || q) := by cases p <;> cases q <;> rfl

theorem one_sub_flagOf (p : Bool) : 1 - flagOf p = flagOf (!p) := by cases p <;> rfl

/-! ### The comparator (R208) -/

theorem fxCmp_eq (x y : Value) :
    fxCmp x y = if x.V < y.V then .lt else if x.V > y.V then .gt else .eq := by
  have hx := And.intro x.w0.isLt (And.intro x.w1.isLt (And.intro x.w2.isLt x.w3.isLt))
  have hy := And.intro y.w0.isLt (And.intro y.w1.isLt (And.intro y.w2.isLt y.w3.isLt))
  have hVx := x.V_eq
  have hVy := y.V_eq
  simp only [fxCmp, cmpLimb]
  split_ifs <;> first | rfl | (exfalso; omega)

theorem fxEq_eq (x y : Value) : fxEq x y = flagOf (decide (x.V = y.V)) := by
  have h : decide (x.V = y.V) = (decide (x.w0 = y.w0) && decide (x.w1 = y.w1) && decide (x.w2 = y.w2)
      && decide (x.w3 = y.w3) && decide (x.w4 = y.w4)) := by
    rw [Bool.eq_iff_iff]
    simp only [decide_eq_true_eq, Bool.and_eq_true, Value.V_inj]
    cases x; cases y
    simp only [Value.mk.injEq]
    tauto
  rw [h, fxEq]

theorem fxGt_eq (x y : Value) : fxGt x y = flagOf (decide (x.V > y.V)) := by
  rw [fxGt, fxCmp_eq]
  congr 2
  split_ifs <;> simp_all
  omega

theorem fxNe_eq (x y : Value) : fxNe x y = flagOf (decide (x.V ≠ y.V)) := by
  rw [fxNe, fxEq_eq, one_sub_flagOf]
  congr 1
  simp

theorem fxGe_eq (x y : Value) : fxGe x y = flagOf (decide (x.V ≥ y.V)) := by
  rw [fxGe, fxGt_eq, fxEq_eq, flagOf_or]
  congr 1
  rw [Bool.eq_iff_iff]
  simp only [Bool.or_eq_true, decide_eq_true_eq]
  omega

theorem fxLt_eq (x y : Value) : fxLt x y = flagOf (decide (x.V < y.V)) := by
  have h : fxLt x y = 1 - fxGe x y := rfl
  rw [h, fxGe_eq, one_sub_flagOf]
  congr 1
  rw [Bool.eq_iff_iff]
  simp

theorem fxLe_eq (x y : Value) : fxLe x y = flagOf (decide (x.V ≤ y.V)) := by
  rw [fxLe, fxGt_eq, one_sub_flagOf]
  congr 1
  rw [Bool.eq_iff_iff]
  simp

/-! ### The adder and the subtractor (R121 to R124) -/

theorem V_fxAdd (a b : Value) :
    (fxAdd a b).1.V = (a.V + b.V) % 2 ^ 113 ∧ (fxAdd a b).2.toNat = (a.V + b.V) / 2 ^ 113 := by
  have := a.w0.isLt
  have := a.w1.isLt
  have := a.w2.isLt
  have := a.w3.isLt
  have := a.w4.isLt
  have := b.w0.isLt
  have := b.w1.isLt
  have := b.w2.isLt
  have := b.w3.isLt
  have := b.w4.isLt
  simp only [fxAdd, lowLimb, carryOn, topBit, carryBit, Value.V, BitVec.toNat_ofNat]
  omega

theorem V_fxNot (a : Value) : (fxNot a).V = 2 ^ 113 - 1 - a.V := by
  have := a.w0.isLt
  have := a.w1.isLt
  have := a.w2.isLt
  have := a.w3.isLt
  have := a.w4.isLt
  simp only [fxNot, Value.V, BitVec.toNat_not]
  omega

theorem V_fxAInv (a : Value) :
    (fxAInv a).1.V = (2 ^ 113 - a.V) % 2 ^ 113 ∧ (fxAInv a).2.toNat = if a.V = 0 then 1 else 0 := by
  have h := V_fxAdd (fxNot a) Value.ulp
  have := a.V_lt
  rw [V_fxNot, Value.V_ulp] at h
  rw [fxAInv]
  constructor
  · rw [h.1]; congr 1; omega
  · rw [h.2]; split_ifs <;> omega

theorem V_fxSub (a b : Value) :
    (fxSub a b).1.V = (2 ^ 113 + a.V - b.V) % 2 ^ 113 ∧ (fxSub a b).2.toNat = if a.V < b.V then 1 else 0 := by
  have ha := a.V_lt
  have hb := b.V_lt
  simp only [fxSub, (V_fxAdd _ _).1, (V_fxAInv _).1, fxLt_eq, toNat_flagOf, decide_eq_true_eq, and_true]
  omega

/-! ### The single-bit shifts (R171, R172) -/

/-- A limb shifted left with the top bit of the limb below it. -/
theorem toNat_shiftInLow (x y : Limb) :
    ((x <<< 1) ||| (y >>> 27)).toNat = 2 * x.toNat % 2 ^ 28 + y.toNat / 2 ^ 27 := by
  have hx := x.isLt
  have hy := y.isLt
  have h : x.toNat <<< 1 % 2 ^ 28 = (x.toNat % 2 ^ 27) <<< 1 := by
    simp only [Nat.shiftLeft_eq]; omega
  have hlt : y.toNat >>> 27 < 2 ^ 1 := by
    rw [Nat.shiftRight_eq_div_pow]; omega
  rw [BitVec.toNat_or, BitVec.toNat_shiftLeft, BitVec.toNat_ushiftRight, h, ← Nat.shiftLeft_add_eq_or_of_lt hlt,
    Nat.shiftLeft_eq, Nat.shiftRight_eq_div_pow]
  omega

/-- A limb shifted right with a bit from above. -/
theorem toNat_shiftInHigh (x z : Limb) (hz : z.toNat < 2) :
    ((x >>> 1) ||| (z <<< 27)).toNat = x.toNat / 2 + z.toNat * 2 ^ 27 := by
  have hx := x.isLt
  have h : z.toNat <<< 27 % 2 ^ 28 = z.toNat <<< 27 := by
    simp only [Nat.shiftLeft_eq]; omega
  have hlt : x.toNat >>> 1 < 2 ^ 27 := by
    rw [Nat.shiftRight_eq_div_pow]; omega
  rw [BitVec.toNat_or, BitVec.toNat_shiftLeft, BitVec.toNat_ushiftRight, h, Nat.or_comm,
    ← Nat.shiftLeft_add_eq_or_of_lt hlt, Nat.shiftLeft_eq, Nat.shiftRight_eq_div_pow]
  omega

theorem V_fxSsl (a : Value) (cin : Bit) : (fxSsl a cin).V = (2 * a.V + cin.toNat) % 2 ^ 113 := by
  have h0 : ((a.w0 <<< 1) ||| cin.setWidth 28).toNat = 2 * a.w0.toNat % 2 ^ 28 + cin.toNat := by
    have hc := cin.isLt
    have h : a.w0.toNat <<< 1 % 2 ^ 28 = (a.w0.toNat % 2 ^ 27) <<< 1 := by
      simp only [Nat.shiftLeft_eq]; omega
    have hlt : cin.toNat % 2 ^ 28 < 2 ^ 1 := by omega
    rw [BitVec.toNat_or, BitVec.toNat_shiftLeft, BitVec.toNat_setWidth, h, ← Nat.shiftLeft_add_eq_or_of_lt hlt,
      Nat.shiftLeft_eq]
    omega
  have := a.w0.isLt
  have := a.w1.isLt
  have := a.w2.isLt
  have := a.w3.isLt
  have := a.w4.isLt
  have := cin.isLt
  simp only [fxSsl, Value.V, h0, toNat_shiftInLow, BitVec.toNat_setWidth, BitVec.toNat_ushiftRight,
    Nat.shiftRight_eq_div_pow]
  omega

theorem V_fxSsr (a : Value) (cin : Bit) : (fxSsr a cin).V = a.V / 2 + cin.toNat * 2 ^ 112 := by
  have hmod : ∀ x : Limb, (x &&& 1).toNat = x.toNat % 2 := by
    intro x
    rw [BitVec.toNat_and]
    exact Nat.and_one_is_mod _
  have hset : (a.w4.setWidth 28).toNat = a.w4.toNat := by
    have := a.w4.isLt
    rw [BitVec.toNat_setWidth]; omega
  have := a.w4.isLt
  have := a.w0.isLt
  have := a.w1.isLt
  have := a.w2.isLt
  have := a.w3.isLt
  simp only [fxSsr, Value.V]
  have hm1 : ∀ x : Limb, (x &&& 1).toNat < 2 := fun x => by rw [hmod]; omega
  rw [toNat_shiftInHigh a.w0 _ (hm1 _), toNat_shiftInHigh a.w1 _ (hm1 _), toNat_shiftInHigh a.w2 _ (hm1 _),
    toNat_shiftInHigh a.w3 _ (by rw [hset]; omega), hmod, hmod, hmod, hset]
  omega

theorem V_fxSsl_zero (a : Value) : (fxSsl a 0).V = 2 * a.V % 2 ^ 113 := by
  rw [V_fxSsl, show (0 : Bit).toNat = 0 from rfl, Nat.add_zero]

theorem V_fxSsl_one (a : Value) : (fxSsl a 1).V = (2 * a.V + 1) % 2 ^ 113 := by
  rw [V_fxSsl, show (1 : Bit).toNat = 1 from rfl]

theorem V_fxSsr_zero (a : Value) : (fxSsr a 0).V = a.V / 2 := by
  rw [V_fxSsr, show (0 : Bit).toNat = 0 from rfl, Nat.zero_mul, Nat.add_zero]

theorem V_fxSsr_one (a : Value) : (fxSsr a 1).V = a.V / 2 + 2 ^ 112 := by
  rw [V_fxSsr, show (1 : Bit).toNat = 1 from rfl, Nat.one_mul]

/-! ### The multi-bit shifts (R174 to R176) -/

theorem V_iterate_ssl (k : Nat) (a : Value) :
    ((fun r => fxSsl r 0)^[k] a).V = a.V * 2 ^ k % 2 ^ 113 := by
  induction k generalizing a with
  | zero => rw [Function.iterate_zero_apply, pow_zero, Nat.mul_one, Nat.mod_eq_of_lt a.V_lt]
  | succ k ih =>
    rw [Function.iterate_succ_apply, ih, V_fxSsl_zero, Nat.mod_mul_mod, pow_succ' 2 k, ← Nat.mul_assoc,
      Nat.mul_comm a.V 2]

theorem V_iterate_ssr (k : Nat) (a : Value) : ((fun r => fxSsr r 0)^[k] a).V = a.V / 2 ^ k := by
  induction k generalizing a with
  | zero => rw [Function.iterate_zero_apply, pow_zero, Nat.div_one]
  | succ k ih => rw [Function.iterate_succ_apply, ih, V_fxSsr_zero, Nat.div_div_eq_div_mul, ← pow_succ' 2 k]

theorem V_fxLsl (a : Value) (k : Nat) : (fxLsl a k).V = a.V * 2 ^ k % 2 ^ 113 := by
  rw [fxLsl, V_iterate_ssl, steps]
  rcases Nat.le_total k Config.numBits with h | h
  · rw [Nat.min_eq_left h]
  · rw [Nat.min_eq_right h]
    obtain ⟨d, rfl⟩ := Nat.exists_eq_add_of_le h
    rw [pow_add, Nat.mul_left_comm, Nat.mul_mod_right, Nat.mul_mod_left]

theorem V_fxLsr (a : Value) (k : Nat) : (fxLsr a k).V = a.V / 2 ^ k := by
  rw [fxLsr, V_iterate_ssr, steps]
  rcases Nat.le_total k Config.numBits with h | h
  · rw [Nat.min_eq_left h]
  · rw [Nat.min_eq_right h, Nat.div_eq_of_lt a.V_lt,
      Nat.div_eq_of_lt (Nat.lt_of_lt_of_le a.V_lt (Nat.pow_le_pow_right (by norm_num) h))]

/-- With the top bit set, each step of ASR keeps it set and halves the distance to 2^113. -/
theorem V_iterate_ssr_one (k : Nat) (a : Value) (h : a.w4 = 1) :
    ((fun r => fxSsr r 1)^[k] a).V = 2 ^ 113 - 1 - (2 ^ 113 - 1 - a.V) / 2 ^ k := by
  induction k generalizing a with
  | zero =>
    have := a.V_lt
    simp only [Function.iterate_zero_apply, pow_zero, Nat.div_one]
    omega
  | succ k ih =>
    have ha := a.V_lt
    have hm := a.w4_toNat
    have hw : a.V / 2 ^ 112 = 1 := by rw [← hm, h]; rfl
    have hhalf : 2 ^ 113 - 1 - (a.V / 2 + 2 ^ 112) = (2 ^ 113 - 1 - a.V) / 2 := by omega
    rw [Function.iterate_succ_apply, ih _ rfl, V_fxSsr_one, pow_succ' 2 k, ← Nat.div_div_eq_div_mul, hhalf]

theorem V_fxAsr (a : Value) (k : Nat) :
    (fxAsr a k).V = a.V / 2 ^ k + if 2 ^ 112 ≤ a.V then 2 ^ 113 - 2 ^ (113 - k) else 0 := by
  have ha := a.V_lt
  have hm := a.w4_toNat
  split_ifs with h
  · have hw : a.w4 = 1 := by
      rw [← BitVec.toNat_inj, hm]
      simp
      omega
    rw [fxAsr, hw, V_iterate_ssr_one _ _ hw, steps]
    rcases Nat.le_total k Config.numBits with hk | hk
    · rw [Nat.min_eq_left hk]
      have hp : (2 : Nat) ^ k * 2 ^ (113 - k) = 2 ^ 113 := by
        rw [← pow_add]; congr 1; have : k ≤ 113 := hk; omega
      generalize hq : (2 : Nat) ^ (113 - k) = q at hp ⊢
      have hpos : 0 < 2 ^ k := by positivity
      have hd := Nat.div_add_mod a.V (2 ^ k)
      have hlt := Nat.mod_lt a.V hpos
      have hmul : ∀ x, (q - x) * 2 ^ k = 2 ^ k * q - 2 ^ k * x := fun x => by
        rw [Nat.sub_mul, Nat.mul_comm q, Nat.mul_comm x]
      have hle : a.V / 2 ^ k < q := by
        rw [Nat.div_lt_iff_lt_mul hpos, Nat.mul_comm]; omega
      have hdiv : (2 ^ 113 - 1 - a.V) / 2 ^ k = q - 1 - a.V / 2 ^ k := by
        apply Nat.div_eq_of_lt_le
        · rw [Nat.sub_sub, hmul, Nat.mul_add, hp]
          omega
        · rw [show q - 1 - a.V / 2 ^ k + 1 = q - a.V / 2 ^ k by omega, hmul, hp]
          omega
      have hqle : q ≤ 2 ^ 113 := by
        rw [← hq]; exact Nat.pow_le_pow_right (by norm_num) (by omega)
      rw [hdiv]
      generalize a.V / 2 ^ k = d at hle
      omega
    · rw [Nat.min_eq_right hk]
      have h1 : (113 : Nat) - k = 0 := by have : 113 ≤ k := hk; omega
      have h2 : a.V / 2 ^ k = 0 :=
        Nat.div_eq_of_lt (Nat.lt_of_lt_of_le ha (Nat.pow_le_pow_right (by norm_num) hk))
      rw [h1, h2]
      simp only [Config.numBits]
      omega
  · have hw : a.w4 = 0 := by
      rw [← BitVec.toNat_inj, hm]
      simp
      omega
    have hl := V_fxLsr a k
    rw [fxLsr] at hl
    rw [fxAsr, hw, hl, Nat.add_zero]

/-! ### TRUNC (R177) -/

/-- The boundary limb: clearing its low `rem` bits takes off what they weigh. -/
theorem toNat_clearLow {w : Nat} (x : BitVec w) (rem : Nat) :
    (x &&& ~~~ BitVec.ofNat w (2 ^ rem - 1)).toNat = x.toNat - x.toNat % 2 ^ rem := by
  have hx := x.isLt
  have hcut : x &&& ~~~ BitVec.ofNat w (2 ^ rem - 1) = (x >>> rem) <<< rem := by
    apply BitVec.eq_of_getLsbD_eq
    intro i hi
    have hp : (2 ^ rem - 1 : Nat).testBit i = decide (i < rem) := Nat.testBit_two_pow_sub_one rem i
    simp only [BitVec.getLsbD_and, BitVec.getLsbD_not, BitVec.getLsbD_ofNat, hp, BitVec.getLsbD_shiftLeft, hi,
      BitVec.getLsbD_ushiftRight]
    by_cases hir : i < rem
    · simp [hir]
    · have : rem + (i - rem) = i := by omega
      simp [hir, this]
  have hdm := Nat.div_add_mod x.toNat (2 ^ rem)
  rw [hcut, BitVec.toNat_shiftLeft, BitVec.toNat_ushiftRight, Nat.shiftLeft_eq, Nat.shiftRight_eq_div_pow,
    Nat.mul_comm, Nat.mod_eq_of_lt (by omega)]
  omega

/-- What the low `28·q + rem` bits of an integer weigh, for a boundary limb of its base-2^28 digits. -/
theorem mod_boundary (v q rem : Nat) :
    v % 2 ^ (28 * q + rem) = v % 2 ^ (28 * q) + 2 ^ (28 * q) * (v / 2 ^ (28 * q) % 2 ^ rem) := by
  rw [pow_add, Nat.mod_mul]

theorem V_fxTrunc (a : Value) (n : Nat) : (fxTrunc a n).V = a.V - a.V % 2 ^ n := by
  have h0 := a.w0.isLt
  have h1 := a.w1.isLt
  have h2 := a.w2.isLt
  have h3 := a.w3.isLt
  have h4 := a.w4.isLt
  rw [fxTrunc]
  split_ifs with hn
  · rw [Value.V_zero, Nat.mod_eq_of_lt (Nat.lt_of_lt_of_le a.V_lt (Nat.pow_le_pow_right (by norm_num) hn))]
    omega
  · have hr : n % 28 ≤ 28 := by omega
    have hpow : ∀ k, k ≤ 28 → ∃ d, (2 : Nat) ^ 28 = 2 ^ k * d := fun k hk =>
      ⟨2 ^ (28 - k), by rw [← pow_add]; congr 1; omega⟩
    obtain ⟨d, hd⟩ := hpow _ hr
    have hcl := fun x : Limb => toNat_clearLow x (n % 28)
    have hmod : ∀ x y : Nat, (x + 2 ^ 28 * y) % 2 ^ (n % 28) = x % 2 ^ (n % 28) := by
      intro x y
      rw [hd, Nat.mul_assoc, Nat.add_mul_mod_self_left]
    have hn' : n = 28 * (n / 28) + n % 28 := by omega
    have hq : n / 28 = 0 ∨ n / 28 = 1 ∨ n / 28 = 2 ∨ n / 28 = 3 ∨ (n / 28 = 4 ∧ n % 28 = 0) := by omega
    have hle : ∀ x : Nat, x % 2 ^ (n % 28) ≤ x := fun x => Nat.mod_le _ _
    conv_rhs => rw [hn']
    rw [mod_boundary]
    rcases hq with hq | hq | hq | hq | ⟨hq, hz⟩
    · have e : a.V / 2 ^ (28 * 0) = a.w0.toNat +
          2 ^ 28 * (a.w4.toNat * 2 ^ 84 + a.w3.toNat * 2 ^ 56 + a.w2.toNat * 2 ^ 28 + a.w1.toNat) := by
        simp only [Value.V]; omega
      have := hle a.w0.toNat
      rw [hq, e, hmod]
      simp only [Value.V, truncLimb, Nat.lt_irrefl, if_false, if_true, OfNat.ofNat_ne_zero, one_ne_zero, hcl,
        Nat.not_lt_zero]
      omega
    · have e : a.V / 2 ^ (28 * 1) = a.w1.toNat +
          2 ^ 28 * (a.w4.toNat * 2 ^ 56 + a.w3.toNat * 2 ^ 28 + a.w2.toNat) := by
        simp only [Value.V]; omega
      have := hle a.w1.toNat
      rw [hq, e, hmod]
      simp only [Value.V, truncLimb, hcl, lt_self_iff_false, if_true, if_false, Nat.reduceLT, Nat.reduceEqDiff,
        BitVec.ofNat_eq_ofNat, BitVec.toNat_ofNat, Nat.reducePow, Nat.reduceMul]
      omega
    · have e : a.V / 2 ^ (28 * 2) = a.w2.toNat + 2 ^ 28 * (a.w4.toNat * 2 ^ 28 + a.w3.toNat) := by
        simp only [Value.V]; omega
      have := hle a.w2.toNat
      rw [hq, e, hmod]
      simp only [Value.V, truncLimb, hcl, lt_self_iff_false, if_true, if_false, Nat.reduceLT, Nat.reduceEqDiff,
        BitVec.ofNat_eq_ofNat, BitVec.toNat_ofNat, Nat.reducePow, Nat.reduceMul]
      omega
    · have e : a.V / 2 ^ (28 * 3) = a.w3.toNat + 2 ^ 28 * a.w4.toNat := by
        simp only [Value.V]; omega
      have := hle a.w3.toNat
      rw [hq, e, hmod]
      simp only [Value.V, truncLimb, hcl, lt_self_iff_false, if_true, if_false, Nat.reduceLT, Nat.reduceEqDiff,
        BitVec.ofNat_eq_ofNat, BitVec.toNat_ofNat, Nat.reducePow, Nat.reduceMul]
      omega
    · rw [hq, hz]
      simp only [Value.V, truncLimb, lt_self_iff_false, if_true, if_false, Nat.reduceLT, pow_zero, Nat.sub_self,
        BitVec.ofNat_eq_ofNat, BitVec.not_zero, BitVec.and_allOnes, BitVec.toNat_ofNat, Nat.reducePow, Nat.reduceMul]
      omega

/-! ### ALIGN (R178) -/

/-- The loop, with enough steps left: the value it stops at is its operand moved up by the steps it counted, and it
stops with the top bit set unless the operand is `Zero`. -/
theorem alignLoop_spec (fuel : Nat) (r : Value) (count : Nat) (h : r.V = 0 ∨ 2 ^ 112 ≤ r.V * 2 ^ fuel) :
    ∃ k, (alignLoop fuel r count).2 = count + k ∧ k ≤ fuel ∧ (alignLoop fuel r count).1.V = r.V * 2 ^ k ∧
      (r.V = 0 → k = 0) ∧ (r.V ≠ 0 → 2 ^ 112 ≤ (alignLoop fuel r count).1.V) := by
  induction fuel generalizing r count with
  | zero =>
    refine ⟨0, rfl, le_rfl, ?_, fun _ => rfl, ?_⟩
    · simp [alignLoop]
    · intro hr
      simpa [alignLoop, hr] using h
  | succ fuel ih =>
    have hr := r.V_lt
    have hw := r.w4_toNat
    rw [alignLoop]
    split_ifs with hc
    · have hw0 : r.w4.toNat = 0 := by rw [hc.1]; rfl
      have hne : r.V ≠ 0 := by
        have := hc.2
        rw [fxEq_eq, Value.V_zero] at this
        intro h0
        simp [h0] at this
      have hs : (fxSsl r 0).V = 2 * r.V := by
        rw [V_fxSsl_zero]; omega
      have h' : 2 ^ 112 ≤ (fxSsl r 0).V * 2 ^ fuel := by
        rcases h with h | h
        · exact absurd h hne
        · rw [hs, Nat.mul_comm 2, Nat.mul_assoc, ← pow_succ' 2 fuel]; exact h
      obtain ⟨k, h1, h2, h3, -, h5⟩ := ih (fxSsl r 0) (count + 1) (.inr h')
      refine ⟨k + 1, by omega, by omega, ?_, fun h0 => absurd h0 hne, fun _ => h5 (by omega)⟩
      rw [h3, hs, pow_succ 2 k]; ring
    · refine ⟨0, rfl, Nat.zero_le _, by simp, fun _ => rfl, fun hne => ?_⟩
      by_contra hlt
      have hlt : r.V < 2 ^ 112 := Nat.lt_of_not_le hlt
      apply hc
      constructor
      · rw [← BitVec.toNat_inj, hw]
        simp
        omega
      · rw [fxEq_eq, Value.V_zero]
        simp [hne]

/-- What ALIGN returns (R178): `Zero` with count 0 for `Zero`; otherwise its operand moved up until bit 112 is set. -/
theorem fxAlign_spec (a : Value) :
    (fxAlign a).2 ≤ 112 ∧ (fxAlign a).1.V = a.V * 2 ^ (fxAlign a).2 ∧
      (a.V = 0 → (fxAlign a).2 = 0) ∧ (a.V ≠ 0 → 2 ^ 112 ≤ (fxAlign a).1.V) := by
  have h : a.V = 0 ∨ 2 ^ 112 ≤ a.V * 2 ^ 112 := by
    rcases Nat.eq_zero_or_pos a.V with h | h
    · exact .inl h
    · exact .inr (Nat.le_mul_of_pos_left _ h)
  obtain ⟨k, h1, h2, h3, h4, h5⟩ := alignLoop_spec 112 a 0 h
  rw [Nat.zero_add] at h1
  rw [fxAlign, h1]
  exact ⟨h2, h3, h4, h5⟩

end Sys2Proof.Machine
end

