-- ==== Sys2Proof/Laws/Binary64.lean ====
section
/-! SUPPORT. The fields of a binary64 pattern as the machine takes them from the port `f` are the integers that the
statements speak of (R45). -/

namespace Sys2Proof.Safety

open Sys2Proof.Machine

theorem f64Exp_eq (f : Scalar) : f64Exp f = exponentOf f := by
  simp [f64Exp, exponentOf, BitVec.extractLsb'_toNat, Nat.shiftRight_eq_div_pow]

theorem f64Frac_eq (f : Scalar) : f64Frac f = fractionOf f := by
  simp [f64Frac, fractionOf, BitVec.extractLsb'_toNat]

theorem f64Sign_eq_one (f : Scalar) : f64Sign f = 1 ↔ 2 ^ 63 ≤ f.toNat := by
  have := f.isLt
  rw [f64Sign, ← BitVec.toNat_inj, BitVec.extractLsb'_toNat, Nat.shiftRight_eq_div_pow]
  simp only [BitVec.ofNat_eq_ofNat, BitVec.toNat_ofNat]
  omega

end Sys2Proof.Safety
end

