-- ==== Sys2Proof/Laws/PerInstr.lean ====
section
/-! SUPPORT. What is stated once for every instruction as syntax: the ports that the encoder sets decode to the
instruction they were set for, one lemma per constructor. -/

namespace Sys2Proof.Laws.DecodeEncode

/-- The decoder reads back a well-formed instruction from the ports the encoder sets. -/
def Statement (i : Instr) : Prop := i.wellFormed = true → decode (encode i) = .ok i

/-- A signed integer that fits the port `n` is read back from it (R61, R71). -/
theorem toInt_ofInt_of_portFits {n : Int} (h : portFits n = true) : (BitVec.ofInt 32 n).toInt = n := by
  simp only [portFits, Bool.and_eq_true, decide_eq_true_eq] at h
  rw [BitVec.toInt_ofInt, Int.bmod_eq_of_le] <;> omega

theorem load (a : Value) : Statement (.load a) := fun _ => rfl

theorem loadv (n : Int) (vec : List VecWord) : Statement (.loadv n vec) := fun h =>
  congrArg (fun m => Except.ok (Instr.loadv m vec)) (toInt_ofInt_of_portFits h)

theorem fromint (n : Int) : Statement (.fromint n) := fun h =>
  congrArg (fun m => Except.ok (Instr.fromint m)) (toInt_ofInt_of_portFits h)

theorem fromf64 (f : Scalar) : Statement (.fromf64 f) := fun _ => rfl

theorem msb (a : Value) : Statement (.msb a) := fun _ => rfl

theorem low64 (a : Value) : Statement (.low64 a) := fun _ => rfl

theorem add (a b : Value) : Statement (.add a b) := fun _ => rfl

theorem sub (a b : Value) : Statement (.sub a b) := fun _ => rfl

theorem ainv (a : Value) : Statement (.ainv a) := fun _ => rfl

theorem not (a : Value) : Statement (.not a) := fun _ => rfl

theorem mul (a b : Value) : Statement (.mul a b) := fun _ => rfl

theorem div (a b : Value) : Statement (.div a b) := fun _ => rfl

theorem ssl (a : Value) (cin : Bit) : Statement (.ssl a cin) := fun _ => rfl

theorem ssr (a : Value) (cin : Bit) : Statement (.ssr a cin) := fun _ => rfl

theorem lsl (a : Value) (n : Int) : Statement (.lsl a n) := fun h =>
  congrArg (fun m => Except.ok (Instr.lsl a m)) (toInt_ofInt_of_portFits h)

theorem lsr (a : Value) (n : Int) : Statement (.lsr a n) := fun h =>
  congrArg (fun m => Except.ok (Instr.lsr a m)) (toInt_ofInt_of_portFits h)

theorem asr (a : Value) (n : Int) : Statement (.asr a n) := fun h =>
  congrArg (fun m => Except.ok (Instr.asr a m)) (toInt_ofInt_of_portFits h)

theorem trunc (a : Value) (n : Int) : Statement (.trunc a n) := fun h =>
  congrArg (fun m => Except.ok (Instr.trunc a m)) (toInt_ofInt_of_portFits h)

theorem align (a : Value) : Statement (.align a) := fun _ => rfl

theorem cmp (a b : Value) : Statement (.cmp a b) := fun _ => rfl

theorem eq (a b : Value) : Statement (.eq a b) := fun _ => rfl

theorem ne (a b : Value) : Statement (.ne a b) := fun _ => rfl

theorem gt (a b : Value) : Statement (.gt a b) := fun _ => rfl

theorem ge (a b : Value) : Statement (.ge a b) := fun _ => rfl

theorem lt (a b : Value) : Statement (.lt a b) := fun _ => rfl

theorem le (a b : Value) : Statement (.le a b) := fun _ => rfl

end Sys2Proof.Laws.DecodeEncode
end

