-- ==== Sys2Proof/Laws/State.lean ====
section
/-! SUPPORT. The small lemmas of the channel: each field after each update, and once for each shared operation what it
can answer. -/

namespace Sys2Proof.Machine

/-! ### One lemma per field per update -/

@[simp] theorem respond_pending (i : Instr) (resp : Response) (s : State) :
    (respond i resp s).pending = s.pending := rfl

@[simp] theorem respond_trace (i : Instr) (resp : Response) (s : State) :
    (respond i resp s).trace = s.trace ++ [(i, resp)] := rfl

@[simp] theorem presentCommand_pending (c : Command) (s : State) :
    (presentCommand c s).pending = c :: s.pending := rfl

@[simp] theorem presentCommand_trace (c : Command) (s : State) :
    (presentCommand c s).trace = s.trace := rfl

@[simp] theorem reset_pending : State.reset.pending = [] := rfl

@[simp] theorem reset_trace : State.reset.trace = [] := rfl

@[simp] theorem withFetchWord_trace (s : State) (nbits w : Nat) :
    (s.withFetchWord nbits w).trace = s.trace := rfl

@[simp] theorem withFetchWord_pending (s : State) (nbits w : Nat) :
    (s.withFetchWord nbits w).pending = tableCommand nbits w :: s.pending := rfl

@[simp] theorem lastResponse_respond (i : Instr) (resp : Response) (s : State) :
    lastResponse (respond i resp s) = some resp := by
  simp [lastResponse]

/-! ### What each shared operation answers -/

/-- Responding loses nothing: what was answered, and before what, can be read back. -/
theorem respond_inj {i j : Instr} {p q : Response} {s t : State} :
    respond i p s = respond j q t ↔ i = j ∧ p = q ∧ s = t := by
  constructor
  · intro h
    have hp := congrArg State.pending h
    have ht := congrArg State.trace h
    simp only [respond_pending, respond_trace] at hp ht
    obtain ⟨h1, h2⟩ := List.append_inj' ht rfl
    obtain ⟨rfl, rfl⟩ : i = j ∧ p = q := by simpa using h2
    cases s; cases t
    simp_all
  · rintro ⟨rfl, rfl, rfl⟩
    rfl

/-- An operation that completes answers exactly one next state. -/
theorem answer_next {i : Instr} {resp : Response} {s t : State} :
    answer i resp s = .next t ↔ t = respond i resp s := by
  simp [answer, eq_comm]

/-- Taking an exception answers exactly one next state, whose last response is the fault alone. -/
theorem raise_next {i : Instr} {f : Fault} {s t : State} :
    raise i f s = .next t ↔ t = respond i (.fault f) s := by
  simp [raise, answer_next]

theorem answer_ne_fault {i : Instr} {resp : Response} {s : State} {f : Fault} :
    answer i resp s ≠ .fault f := by
  simp [answer]

theorem answer_ne_refused {i : Instr} {resp : Response} {s : State} {ρ : Refusal} :
    answer i resp s ≠ .refused ρ := by
  simp [answer]

/-- Accepting takes the first pending command and nothing else. -/
theorem acceptCommand_eq {s s' : State} {c : Command} :
    acceptCommand s = some (c, s') ↔ s.pending = c :: s'.pending ∧ s'.trace = s.trace := by
  obtain ⟨pending, trace⟩ := s
  obtain ⟨pending', trace'⟩ := s'
  cases pending <;> simp [acceptCommand]
  tauto

theorem acceptCommand_none {s : State} : acceptCommand s = none ↔ s.pending = [] := by
  obtain ⟨pending, trace⟩ := s
  cases pending <;> simp [acceptCommand]

end Sys2Proof.Machine
end

