-- ==== Sys2Proof/Tests/Slice0.lean ====
section
/-! SUPPORT. The model's own tests. Expected results come from the spec: the vectors of 95_test_vectors.md by their ids,
and words packed by hand from the table of R62. At the end, for each statement with hypotheses, a case that meets them. -/

namespace Sys2Proof.Tests.Slice0

/- The tests are many and short, and elaborated in parallel they ask for more threads than the checker's memory limit
allows. -/
set_option Elab.async false

open Sys2Proof Sys2Proof.Machine Sys2Proof.Safety

/-- The general operand `(1,8000001,0000003,FFFFFFF,0000002)` of 95_test_vectors.md. -/
def general : Value := ⟨2, 0xFFFFFFF, 3, 0x8000001, 1⟩

/-- The operand `(0,4000000,0000000,0000001,FFFFFFF)` of 95_test_vectors.md. -/
def small : Value := ⟨0xFFFFFFF, 1, 0, 0x4000000, 0⟩

/-- The operand `(1,ABCDEF0,1234567,89ABCDE,F012345)` of R107's example. -/
def word : Value := ⟨0xF012345, 0x89ABCDE, 0x1234567, 0xABCDEF0, 1⟩

/-! ### Well-formedness: an ill-formed term for each check -/

theorem test_wellFormed_loadv_above : (Instr.loadv (2 ^ 31) []).wellFormed = false := by decide
theorem test_wellFormed_fromint_below : (Instr.fromint (-2 ^ 31 - 1)).wellFormed = false := by decide
theorem test_wellFormed_lsl_above : (Instr.lsl Value.one (2 ^ 31)).wellFormed = false := by decide
theorem test_wellFormed_lsr_below : (Instr.lsr Value.one (-2 ^ 31 - 1)).wellFormed = false := by decide
theorem test_wellFormed_asr_above : (Instr.asr Value.one (2 ^ 31)).wellFormed = false := by decide
theorem test_wellFormed_trunc_below : (Instr.trunc Value.one (-2 ^ 31 - 1)).wellFormed = false := by decide
theorem test_wellFormed_ends :
    (Instr.lsr Value.one (2 ^ 31 - 1)).wellFormed = true ∧ (Instr.lsr Value.one (-2 ^ 31)).wellFormed = true := by
  decide

/-! ### Decoding: one word per constructor, from R62 and R67 -/

theorem test_decode_load :
    decodeWord 0x000000000000000000000000000000000000000000006AF37BC048D159E26AF37BC048D14000000001 [] =
      .ok (.load word) := by decide +kernel

theorem test_decode_msb :
    decodeWord 0x000000000000000000000000000000000000000000006AF37BC048D159E26AF37BC048D14000000005 [] =
      .ok (.msb word) := by decide +kernel

theorem test_decode_low64 :
    decodeWord 0x000000000000000000000000000000000000000000006AF37BC048D159E26AF37BC048D14000000006 [] =
      .ok (.low64 word) := by decide +kernel

theorem test_decode_ainv :
    decodeWord 0x000000000000000000000000000000000000000000006AF37BC048D159E26AF37BC048D1400000000A [] =
      .ok (.ainv word) := by decide +kernel

theorem test_decode_not :
    decodeWord 0x000000000000000000000000000000000000000000006AF37BC048D159E26AF37BC048D1400000000B [] =
      .ok (.not word) := by decide +kernel

theorem test_decode_align :
    decodeWord 0x000000000000000000000000000000000000000000006AF37BC048D159E26AF37BC048D14000000016 [] =
      .ok (.align word) := by decide +kernel

theorem test_decode_add :
    decodeWord 0x0000000000000000C0000008000001FFFFFFF80000016AF37BC048D159E26AF37BC048D14000000008 [] =
      .ok (.add word general) := by decide +kernel

theorem test_decode_sub :
    decodeWord 0x0000000000000000C0000008000001FFFFFFF80000016AF37BC048D159E26AF37BC048D14000000009 [] =
      .ok (.sub word general) := by decide +kernel

theorem test_decode_mul :
    decodeWord 0x0000000000000000C0000008000001FFFFFFF80000016AF37BC048D159E26AF37BC048D1400000000C [] =
      .ok (.mul word general) := by decide +kernel

theorem test_decode_div :
    decodeWord 0x0000000000000000C0000008000001FFFFFFF80000016AF37BC048D159E26AF37BC048D1400000000D [] =
      .ok (.div word general) := by decide +kernel

theorem test_decode_cmp :
    decodeWord 0x0000000000000000C0000008000001FFFFFFF80000016AF37BC048D159E26AF37BC048D14000000018 [] =
      .ok (.cmp word general) := by decide +kernel

theorem test_decode_eq :
    decodeWord 0x0000000000000000C0000008000001FFFFFFF80000016AF37BC048D159E26AF37BC048D14000000019 [] =
      .ok (.eq word general) := by decide +kernel

theorem test_decode_ne :
    decodeWord 0x0000000000000000C0000008000001FFFFFFF80000016AF37BC048D159E26AF37BC048D1400000001A [] =
      .ok (.ne word general) := by decide +kernel

theorem test_decode_gt :
    decodeWord 0x0000000000000000C0000008000001FFFFFFF80000016AF37BC048D159E26AF37BC048D1400000001B [] =
      .ok (.gt word general) := by decide +kernel

theorem test_decode_ge :
    decodeWord 0x0000000000000000C0000008000001FFFFFFF80000016AF37BC048D159E26AF37BC048D1400000001C [] =
      .ok (.ge word general) := by decide +kernel

theorem test_decode_lt :
    decodeWord 0x0000000000000000C0000008000001FFFFFFF80000016AF37BC048D159E26AF37BC048D1400000001D [] =
      .ok (.lt word general) := by decide +kernel

theorem test_decode_le :
    decodeWord 0x0000000000000000C0000008000001FFFFFFF80000016AF37BC048D159E26AF37BC048D1400000001E [] =
      .ok (.le word general) := by decide +kernel

theorem test_decode_ssl :
    decodeWord 0x000000000000000000000000000000000000000000006AF37BC048D159E26AF37BC048D14000000030 [] =
      .ok (.ssl word 1) := by decide +kernel

theorem test_decode_ssr :
    decodeWord 0x000000000000000000000000000000000000000000006AF37BC048D159E26AF37BC048D14000000031 [] =
      .ok (.ssr word 1) := by decide +kernel

theorem test_decode_lsl :
    decodeWord 0x000000000000000000000000000000000000000000006AF37BC048D159E26AF37BC048D15FFFFFFFD2 [] =
      .ok (.lsl word 2147483647) := by decide +kernel

theorem test_decode_lsr :
    decodeWord 0x000000000000000000000000000000000000000000006AF37BC048D159E26AF37BC048D14000001C53 [] =
      .ok (.lsr word 113) := by decide +kernel

theorem test_decode_asr :
    decodeWord 0x000000000000000000000000000000000000000000006AF37BC048D159E26AF37BC048D16000000014 [] =
      .ok (.asr word (-2147483648)) := by decide +kernel

theorem test_decode_trunc :
    decodeWord 0x000000000000000000000000000000000000000000006AF37BC048D159E26AF37BC048D17FFFFFFFD5 [] =
      .ok (.trunc word (-1)) := by decide +kernel

theorem test_decode_fromint :
    decodeWord 0x0000000000000000000000000000000000000000000000000000000000000000000000003FFFFFFFC3 [] =
      .ok (.fromint (-1)) := by decide +kernel

theorem test_decode_fromf64 :
    decodeWord 0xFFF8000000000001000000000000000000000000000000000000000000000000000000000000000004 [] =
      .ok (.fromf64 0xFFF8000000000001) := by decide +kernel

theorem test_decode_loadv :
    decodeWord 0x0000000000000000000000000000000000000000000000000000000000000000000000000000000042 [0x12345, 0xF012345, 0x89ABCDE, 0x1234567, 0xABCDEF0, 1, 0] =
      .ok (.loadv 1 [0x12345, 0xF012345, 0x89ABCDE, 0x1234567, 0xABCDEF0, 1, 0]) := by decide +kernel

/-- R68: an ADD whose other ports hold anything is the same command. -/
theorem test_decode_add_unread_ports :
    decodeWord 0x123456789ABCDEF0C0000008000001FFFFFFF80000016AF37BC048D159E26AF37BC048D17FFFFFFE68 [7] =
      .ok (.add word general) := by decide +kernel

theorem test_decode_reserved_00 :
    decodeWord 0x0000000000000000000000000000000000000000000040000000000000000000000000000000000000 [] =
      .error (.reservedOperation 0x0) := by decide +kernel

theorem test_decode_reserved_07 :
    decodeWord 0x0000000000000000000000000000000000000000000040000000000000000000000000000000000007 [] =
      .error (.reservedOperation 0x7) := by decide +kernel

theorem test_decode_reserved_0E :
    decodeWord 0x000000000000000000000000000000000000000000004000000000000000000000000000000000000E [] =
      .error (.reservedOperation 0xe) := by decide +kernel

theorem test_decode_reserved_0F :
    decodeWord 0x000000000000000000000000000000000000000000004000000000000000000000000000000000000F [] =
      .error (.reservedOperation 0xf) := by decide +kernel

theorem test_decode_reserved_17 :
    decodeWord 0x0000000000000000000000000000000000000000000040000000000000000000000000000000000017 [] =
      .error (.reservedOperation 0x17) := by decide +kernel

theorem test_decode_reserved_1F :
    decodeWord 0x000000000000000000000000000000000000000000004000000000000000000000000000000000001F [] =
      .error (.reservedOperation 0x1f) := by decide +kernel

/-! ### The operations, from the vectors -/

/-- CV2 -/
theorem test_load_max : responseTo (.load Value.max) = some (.value Value.max) := by decide +kernel

/-- CV9 -/
theorem test_loadv_last_five : responseTo (.loadv 1 [0xFFFFFFFF, 0xFFFFFFF, 0xFFFFFFF, 0xFFFFFFF, 0xFFFFFFF, 1]) = some (.value Value.max) := by decide +kernel

/-- CV4 -/
theorem test_loadv_order : responseTo (.loadv 0 [1, 2, 3, 4, 1, 7]) = some (.value ⟨0x1, 0x2, 0x3, 0x4, 0x1⟩) := by decide +kernel

/-- CV13 -/
theorem test_fromint_one : responseTo (.fromint 1) = some (.value Value.one) := by decide +kernel

/-- CV16 -/
theorem test_fromint_most_negative : responseTo (.fromint (-2147483648)) = some (.fault .overflow) := by decide +kernel

/-- CV24 -/
theorem test_fromf64_tenth : responseTo (.fromf64 0x3FB999999999999A) = some (.value ⟨0, 0, 0x999999A, 0x1999999, 0⟩) := by decide +kernel

/-- CV33 -/
theorem test_fromf64_lowest_bit : responseTo (.fromf64 0x3C30000000000001) = some (.value ⟨0x1, 0x1000000, 0, 0, 0⟩) := by decide +kernel

/-- CV47 -/
theorem test_msb_below_one : responseTo (.msb ⟨0xFFFFFFF, 0xFFFFFFF, 0xFFFFFFF, 0xFFFFFFF, 0⟩) = some (.flag 0) := by decide +kernel

/-- CV50 -/
theorem test_low64_drops_high_bits : responseTo (.low64 word) = some (.scalar 0x6789ABCDEF012345) := by decide +kernel

/-- AD5 -/
theorem test_add_largest_sum : responseTo (.add Value.max Value.max) = some (.valueFlag ⟨0xFFFFFFE, 0xFFFFFFF, 0xFFFFFFF, 0xFFFFFFF, 0x1⟩ 1) := by decide +kernel

/-- AD10 -/
theorem test_add_general : responseTo (.add general small) = some (.valueFlag ⟨0x1, 0x1, 0x4, 0xC000001, 0x1⟩ 0) := by decide +kernel

/-- SB10 -/
theorem test_sub_general_borrow : responseTo (.sub small general) = some (.valueFlag ⟨0xFFFFFFD, 0x2, 0xFFFFFFC, 0xBFFFFFE, 0⟩ 1) := by decide +kernel

/-- SB8 -/
theorem test_sub_zero_subtrahend : responseTo (.sub general Value.zero) = some (.valueFlag general 0) := by decide +kernel

/-- AI1 -/
theorem test_ainv_zero : responseTo (.ainv Value.zero) = some (.valueFlag Value.zero 1) := by decide +kernel

/-- AI7 -/
theorem test_ainv_general : responseTo (.ainv general) = some (.valueFlag ⟨0xFFFFFFE, 0, 0xFFFFFFC, 0x7FFFFFE, 0⟩ 0) := by decide +kernel

/-- NT5 -/
theorem test_not_general : responseTo (.not general) = some (.value ⟨0xFFFFFFD, 0, 0xFFFFFFC, 0x7FFFFFE, 0⟩) := by decide +kernel

/-- ML6 -/
theorem test_mul_largest_product : responseTo (.mul Value.max Value.max) = some (.valueFlag ⟨0xFFFFFFC, 0xFFFFFFF, 0xFFFFFFF, 0xFFFFFFF, 0x1⟩ 1) := by decide +kernel

/-- ML12 -/
theorem test_mul_general : responseTo (.mul general small) = some (.valueFlag ⟨0xC000001, 0x2, 0x4000001, 0x6000000, 0⟩ 0) := by decide +kernel

/-- DV22 -/
theorem test_div_lossless_left_rescale : responseTo (.div general small) = some (.value ⟨0xFFFFFFC, 0xFFFFFCB, 0xF, 0x4, 0⟩) := by decide +kernel

/-- DV23 -/
theorem test_div_lossy : responseTo (.div small general) = some (.value ⟨0x5555551, 0x1, 0, 0, 0⟩) := by decide +kernel

/-- SH10 -/
theorem test_ssl_general : responseTo (.ssl general 1) = some (.value ⟨0x5, 0xFFFFFFE, 0x7, 0x2, 0x1⟩) := by decide +kernel

/-- SH19 -/
theorem test_ssr_general : responseTo (.ssr general 0) = some (.value ⟨0x8000001, 0xFFFFFFF, 0x8000001, 0xC000000, 0⟩) := by decide +kernel

/-- SH24 -/
theorem test_lsl_past_a_limb : responseTo (.lsl general 29) = some (.value ⟨0, 0x4, 0xFFFFFFE, 0x7, 0⟩) := by decide +kernel

/-- section 2.5, the faults -/
theorem test_lsl_zero_count : responseTo (.lsl Value.one 0) = some (.fault .invalidArgument) := by decide +kernel

/-- SH35 -/
theorem test_lsr_past_a_limb : responseTo (.lsr general 29) = some (.value ⟨0xFFFFFFF, 0x8000001, 0xC000000, 0, 0⟩) := by decide +kernel

/-- SH39 -/
theorem test_lsr_largest_count : responseTo (.lsr Value.max 2147483647) = some (.value Value.zero) := by decide +kernel

/-- SH47 -/
theorem test_asr_a_limb : responseTo (.asr general 28) = some (.value ⟨0xFFFFFFF, 0x3, 0x8000001, 0xFFFFFFF, 0x1⟩) := by decide +kernel

/-- SH45 -/
theorem test_asr_past_width : responseTo (.asr Value.one 200) = some (.value Value.max) := by decide +kernel

/-- SH54 -/
theorem test_trunc_partial_limb : responseTo (.trunc Value.max 30) = some (.value ⟨0, 0xFFFFFFC, 0xFFFFFFF, 0xFFFFFFF, 0x1⟩) := by decide +kernel

/-- SH61 -/
theorem test_trunc_boundary_bit : responseTo (.trunc general 85) = some (.value ⟨0, 0, 0, 0x8000000, 0x1⟩) := by decide +kernel

/-- AL9 -/
theorem test_align_general : responseTo (.align small) = some (.valueScalar ⟨0xFFFFFFC, 0x7, 0, 0, 0x1⟩ 2) := by decide +kernel

/-- AL4 -/
theorem test_align_ulp : responseTo (.align Value.ulp) = some (.valueScalar Value.one 112) := by decide +kernel

/-- CP6 -/
theorem test_cmp_decided_by_w3 : responseTo (.cmp ⟨0, 0, 0, 1, 0⟩ ⟨0xFFFFFFF, 0xFFFFFFF, 0xFFFFFFF, 0, 0⟩) = some (.scalar 1) := by decide +kernel

/-- CP9 -/
theorem test_cmp_less : responseTo (.cmp Value.half Value.one) = some (.scalar 0xFFFFFFFFFFFFFFFF) := by decide +kernel

/-- CP2 -/
theorem test_eq_low_bit : responseTo (.eq Value.zero Value.ulp) = some (.flag 0) := by decide +kernel

/-- CP2 -/
theorem test_ne_low_bit : responseTo (.ne Value.zero Value.ulp) = some (.flag 1) := by decide +kernel

/-- CP6 -/
theorem test_gt_decided_by_w3 : responseTo (.gt ⟨0, 0, 0, 1, 0⟩ ⟨0xFFFFFFF, 0xFFFFFFF, 0xFFFFFFF, 0, 0⟩) = some (.flag 1) := by decide +kernel

/-- CP10 -/
theorem test_ge_equal : responseTo (.ge Value.max Value.max) = some (.flag 1) := by decide +kernel

/-- CP14 -/
theorem test_lt_decided_by_w0 : responseTo (.lt ⟨1, 0, 0, 0, 1⟩ ⟨2, 0, 0, 0, 1⟩) = some (.flag 1) := by decide +kernel

/-- CP3 -/
theorem test_le_greater : responseTo (.le Value.ulp Value.zero) = some (.flag 0) := by decide +kernel

/-- CV10: the offset is good and `vec[0]` does not fit its limb, so there is no response. -/
theorem test_loadv_refused :
    exec (.loadv 0 [0xFFFFFFFF, 0xFFFFFFF, 0xFFFFFFF, 0xFFFFFFF, 0xFFFFFFF, 1]) State.reset =
      .refused .limbOutOfRange := rfl

/-- Program 5 line 11 and line 12: the step after a fault is the next command's own. -/
theorem test_step_after_fault :
    step ⟨[encode (.add Value.half Value.half)], [(.trunc Value.one (-1), .fault .invalidArgument)]⟩ =
      .next ⟨[], [(.trunc Value.one (-1), .fault .invalidArgument),
        (.add Value.half Value.half, .valueFlag Value.one 0)]⟩ := rfl

/-- Program 6 line 3: a reserved code is refused whatever its operand. -/
theorem test_step_refuses_reserved :
    step ⟨[{ blankCommand 0x07 with a := Value.one }], []⟩ = .refused (.reservedOperation 0x07) := rfl

/-- Program 3 line 9: the response word of ALIGN, with its scalar and value in place; `c` is not carried. -/
theorem test_response_word :
    (Response.valueScalar Value.one 3).word 0 = 0x000000000000000380000000000000000000000000000 := by decide

/-- Program 2 line 5: the response word of a fault holds the status. -/
theorem test_response_word_fault : (Response.fault .invalidArgument).word 0 = 1 := by decide

/-! ### For each statement with hypotheses, a case that meets them -/

/-- A machine with one command presented. -/
def presented (i : Instr) : State := presentCommand (encode i) State.reset

theorem witness_StepRunsPresentedCommand :
    (presented (.add Value.one Value.half)).pending = encode (.add Value.one Value.half) :: [] ∧
      decode (encode (.add Value.one Value.half)) = .ok (.add Value.one Value.half) := by decide

theorem witness_StepWaitsForCommand : State.reset.pending = [] := by decide

theorem witness_PlacedTableWordRunsNext : decodeTableWord 8 0x0D = some (.div Value.zero Value.zero) := by decide

/-- With a command presented. -/
theorem witness_StepGivesOneResponse :
    step (presented (.fromint 1)) = .next ⟨[], [(.fromint 1, .value Value.one)]⟩ := rfl

theorem witness_OperationFrame :
    exec (.not Value.zero) State.reset = .next ⟨[], [(.not Value.zero, .value Value.max)]⟩ := rfl

theorem witness_ResponseIsFunctionOfCommand_answered : responseTo (.msb Value.one) = some (.flag 1) := by decide

theorem witness_ResponseIsFunctionOfCommand_refused : responseTo (.loadv 0 [0, 0, 0, 0, 2]) = none := by decide

/-- An ADD with something on a port it does not read, and a DIV that faults. -/
theorem witness_RunAnswersInOrder :
    List.Forall₂ (fun c p => decode c = .ok p.1 ∧ responseTo p.1 = some p.2)
      [{ encode (.add Value.half Value.half) with n := 9, cin := 1 }, encode (.div Value.one Value.zero)]
      [(Instr.add Value.half Value.half, Response.valueFlag Value.one 0),
        (Instr.div Value.one Value.zero, Response.fault .divisionByZero)] :=
  .cons (by decide) (.cons (by decide) .nil)

theorem witness_FaultLeavesNothingBehind :
    exec (.lsl Value.one 0) State.reset =
      .next (respond (.lsl Value.one 0) (.fault .invalidArgument) State.reset) := rfl

theorem witness_ReservedCodesSelectNothing : (blankCommand 0x1F).op ∈ reservedCodes := by decide

theorem witness_ResponsesCarryListedOutputs_ok :
    exec (.align Value.one) State.reset =
        .next (respond (.align Value.one) (.valueScalar Value.one 0) State.reset) ∧
      (Response.valueScalar Value.one 0).status = 0 := ⟨rfl, rfl⟩

theorem witness_ResponsesCarryListedOutputs_fault :
    exec (.fromint 2) State.reset = .next (respond (.fromint 2) (.fault .overflow) State.reset) ∧
      (Response.fault .overflow).status ≠ 0 := ⟨rfl, by decide⟩

theorem witness_ResponseWordLayout :
    (Response.valueFlag Value.max 1).r = some Value.max ∧ (Response.valueFlag Value.max 1).c = some 1 ∧
      (Response.scalar 5).s = some 5 := by decide

theorem witness_StepKeepsTraceToItsRules :
    traceMeetsRules ⟨[encode (.load Value.one)], [(.load Value.one, .value Value.one)]⟩ ∧
      step ⟨[encode (.load Value.one)], [(.load Value.one, .value Value.one)]⟩ =
        .next ⟨[], [(.load Value.one, .value Value.one), (.load Value.one, .value Value.one)]⟩ := by
  refine ⟨?_, rfl⟩
  intro p hp
  obtain rfl : p = (.load Value.one, .value Value.one) := by simpa using hp
  exact ⟨rfl, .inr ⟨fun _ h => h, rfl⟩⟩

theorem witness_DecodeEncodeCommandWord : (Instr.lsl Value.one (2 ^ 31 - 1)).wellFormed = true := by decide

theorem witness_DecodedIsWellFormed :
    decode (encode (.asr Value.one (-2 ^ 31))) = .ok (.asr Value.one (-2 ^ 31)) := by decide

/-- Two SSL commands that differ in every port SSL does not read. -/
theorem witness_DecodeIgnoresUnreadPorts :
    formatOf 0x10 = some .ac ∧
      decode { blankCommand 0x10 with a := Value.one, cin := 1 } =
        decode ⟨0x10, Value.one, Value.max, 9, 1, 77, [1]⟩ := by decide

/-- The hypothesis on the operation code, of every statement about one operation. -/
theorem witness_operation_codes :
    (blankCommand 0x01).op = 0x01 ∧ (blankCommand 0x0D).op = 0x0D ∧ (blankCommand 0x1E).op = 0x1E := by decide

/-- Each clause of LOADV at the ends of its range: an offset of −1, the last five of six words asked for one word too
late, a largest word in each limb, and a smallest word that does not fit `w0` or `w4`. -/
theorem witness_LoadvReadsFiveWords :
    ((-1 : Int) < 0) ∧ ((2 : Int) + 5 > (([1, 2, 3, 4, 1, 7] : List VecWord).length : Int)) ∧
      wordsInRange [0xFFFFFFF, 0xFFFFFFF, 0xFFFFFFF, 0xFFFFFFF, 1] 0 ∧
      ¬ wordsInRange [0x10000000, 0, 0, 0, 0] 0 ∧ ¬ wordsInRange [0, 0, 0, 0, 2] 0 := by
  unfold wordsInRange
  decide

theorem witness_FromintZeroAndOne : ((2 : Int) ≠ 0 ∧ (2 : Int) ≠ 1) ∧ ((-1 : Int) ≠ 0 ∧ (-1 : Int) ≠ 1) := by decide

/-- A NaN is outside the range, by its exponent. -/
theorem witness_Fromf64TruncatesNumber_nan : outsideRange 0x7FF8000000000000 := .inl (by decide)

/-- 2.0 is outside the range, the smallest such positive number. -/
theorem witness_Fromf64TruncatesNumber_two : outsideRange 0x4000000000000000 := by
  have hs : ¬ 2 ^ 63 ≤ (0x4000000000000000 : Scalar).toNat := by decide
  have he : exponentOf 0x4000000000000000 = 1024 := by decide
  have hm : fractionOf 0x4000000000000000 = 0 := by decide
  refine .inr (.inr ?_)
  rw [binary64, if_neg hs, he, hm]
  norm_num

/-- −1.0 is outside the range, as a negative number. -/
theorem witness_Fromf64TruncatesNumber_negative : outsideRange 0xBFF0000000000000 := by
  have hs : 2 ^ 63 ≤ (0xBFF0000000000000 : Scalar).toNat := by decide
  have he : exponentOf 0xBFF0000000000000 = 1023 := by decide
  have hm : fractionOf 0xBFF0000000000000 = 0 := by decide
  refine .inr (.inl ?_)
  rw [binary64, if_pos hs, he, hm]
  norm_num

/-- The negative number nearest zero is outside the range. -/
theorem witness_Fromf64TruncatesNumber_least_negative : outsideRange 0x8000000000000001 := by
  have hs : 2 ^ 63 ≤ (0x8000000000000001 : Scalar).toNat := by decide
  have he : exponentOf 0x8000000000000001 = 0 := by decide
  have hm : fractionOf 0x8000000000000001 = 1 := by decide
  refine .inr (.inl ?_)
  rw [binary64, if_pos hs, he, hm]
  norm_num

/-- Minus zero is inside the range. -/
theorem witness_Fromf64TruncatesNumber_minus_zero : ¬ outsideRange 0x8000000000000000 := by
  have he : exponentOf 0x8000000000000000 = 0 := by decide
  have hm : fractionOf 0x8000000000000000 = 0 := by decide
  rw [outsideRange, binary64, he, hm]
  norm_num

/-- The largest number below 2 is inside the range. -/
theorem witness_Fromf64TruncatesNumber_inside : ¬ outsideRange 0x3FFFFFFFFFFFFFFF := by
  have hs : ¬ 2 ^ 63 ≤ (0x3FFFFFFFFFFFFFFF : Scalar).toNat := by decide
  have he : exponentOf 0x3FFFFFFFFFFFFFFF = 1023 := by decide
  have hm : fractionOf 0x3FFFFFFFFFFFFFFF = 2 ^ 52 - 1 := by decide
  rw [outsideRange, binary64, if_neg hs, he, hm]
  norm_num

theorem witness_SubBorrowNotFromAdder : Value.ulp ≠ Value.zero ∧ Value.zero = Value.zero := by decide

theorem witness_SubThenAddRestores :
    responseTo (.sub Value.half Value.one) = some (.valueFlag ⟨0, 0, 0, 0x8000000, 1⟩ 1) := by decide

theorem witness_MulErrorBound :
    responseTo (.mul Value.max Value.max) =
      some (.valueFlag ⟨0xFFFFFFC, 0xFFFFFFF, 0xFFFFFFF, 0xFFFFFFF, 1⟩ 1) := by decide

theorem witness_DivRunsIntegerLoop : Value.half ≠ Value.zero := by decide

/-- 1.0 / 0.5 runs without a lossy iteration. -/
theorem witness_DivExactWithoutLossyIteration :
    Value.half ≠ Value.zero ∧ noLossyIteration (aligned Value.one.V) (aligned Value.half.V) := by
  unfold noLossyIteration
  decide +kernel

theorem witness_DivByPowerOfTwo : Value.ulp.V = 2 ^ 0 ∧ Value.half.V = 2 ^ 111 ∧ Value.one.V = 2 ^ 112 := by
  decide +kernel

theorem witness_DivSelfAndZero : Value.max ≠ Value.zero := by decide

theorem witness_AlignSetsMsb : Value.zero = Value.zero ∧ Value.ulp ≠ Value.zero := by decide

/-- The counts of the shifts at the ends of their clauses. -/
theorem witness_shift_counts :
    ((0 : Int) ≤ 0) ∧ ((0 : Int) < 1) ∧ ((113 : Int) ≤ 113) ∧ ((112 : Int) ≤ 112) ∧ ((-1 : Int) < 0) := by decide

theorem witness_ShiftRoundTrips : (0 : Int) < 112 ∧ (112 : Int) < 113 := by decide

theorem witness_CmpIsIntegerOrder :
    Value.zero.V < Value.ulp.V ∧ Value.max.V = Value.max.V ∧ Value.one.V > Value.half.V := by decide +kernel

end Sys2Proof.Tests.Slice0
end

/-! ## The scope: an operation looks at its operands and never at the state (R16, R50) -/

namespace Sys2Proof.Proofs.Scope

open Sys2Proof.Machine Sys2Proof.Safety

/-- The meaning `m` of the operation `i` does the same in every state: it gives one and the same response everywhere,
or it refuses everywhere. -/
def ActsAlikeInEveryState (i : Instr) (m : State → Host.Outcome State Fault Refusal) : Prop :=
  (∃ resp, ∀ s, m s = .next (respond i resp s)) ∨ ∃ ρ, ∀ s, m s = .refused ρ

theorem answer_actsAlike (i : Instr) (resp : Response) : ActsAlikeInEveryState i (answer i resp) :=
  .inl ⟨resp, fun _ => rfl⟩

theorem raise_actsAlike (i : Instr) (f : Fault) : ActsAlikeInEveryState i (raise i f) :=
  answer_actsAlike i (.fault f)

theorem refused_actsAlike (i : Instr) (ρ : Refusal) : ActsAlikeInEveryState i fun _ => .refused ρ :=
  .inr ⟨ρ, fun _ => rfl⟩

/-- The condition `p` is one and the same for every state, so every state takes the same branch. -/
theorem ite_actsAlike {i : Instr} {m m' : State → Host.Outcome State Fault Refusal} (p : Prop) [Decidable p]
    (hm : ActsAlikeInEveryState i m) (hm' : ActsAlikeInEveryState i m') :
    ActsAlikeInEveryState i fun s => if p then m s else m' s := by
  by_cases hp : p
  · simpa only [if_pos hp] using hm
  · simpa only [if_neg hp] using hm'

/-- All 26 operations: the branches are on operands alone, and each ends in a response or a refusal. -/
theorem exec_actsAlike (i : Instr) : ActsAlikeInEveryState i (exec i) := by
  cases i with
  | loadv n vec =>
    exact ite_actsAlike _ (raise_actsAlike _ _) (ite_actsAlike _ (answer_actsAlike _ _) (refused_actsAlike _ _))
  | fromint n =>
    exact ite_actsAlike _ (answer_actsAlike _ _) (ite_actsAlike _ (answer_actsAlike _ _) (raise_actsAlike _ _))
  | fromf64 | div | lsl | lsr | asr | trunc => exact ite_actsAlike _ (raise_actsAlike _ _) (answer_actsAlike _ _)
  | load | msb | low64 | add | sub | ainv | not | mul | ssl | ssr | align | cmp | eq | ne | gt | ge | lt | le =>
    exact answer_actsAlike _ _

/-! ### What the response read at reset says of every state -/

theorem responseTo_of_exec_next {i : Instr} {resp : Response} (h : ∀ s, exec i s = .next (respond i resp s)) :
    responseTo i = some resp := by
  simp only [responseTo, h, lastResponse_respond]

theorem responseTo_of_exec_refused {i : Instr} {ρ : Refusal} (h : ∀ s, exec i s = .refused ρ) :
    responseTo i = none := by
  simp only [responseTo, h]

/-- Settles O7: an operation acts alike in every state, so its response at reset decides between the two cases. -/
theorem responseIsFunctionOfCommand : Obligations.ResponseIsFunctionOfCommand := by
  intro i s
  rcases exec_actsAlike i with ⟨given, hnext⟩ | ⟨ρ, hrefused⟩
  · rw [responseTo_of_exec_next hnext]
    exact ⟨fun resp h => Option.some.inj h ▸ hnext s, nofun⟩
  · rw [responseTo_of_exec_refused hrefused]
    exact ⟨nofun, fun _ => ⟨ρ, hrefused s⟩⟩

end Sys2Proof.Proofs.Scope

/-! ## The state: what an operation leaves of it, and what it reads of it (R25 to R32) -/

namespace Sys2Proof.Proofs.Frame

open Sys2Proof.Machine Sys2Proof.Safety Sys2Proof.Proofs.Scope

/-- Whatever state an operation answers, it got there by responding and by nothing else. -/
theorem eq_respond_of_exec_next {i : Instr} {s t : State} (h : exec i s = .next t) :
    ∃ resp, t = respond i resp s := by
  rcases exec_actsAlike i with ⟨resp, hnext⟩ | ⟨ρ, hrefused⟩
  · exact ⟨resp, answer_next.mp ((hnext s).symm.trans h)⟩
  · exact absurd ((hrefused s).symm.trans h) nofun

/-- A response given in one state is given in every other. -/
theorem exec_respond_of_exec_respond {i : Instr} {resp : Response} {s : State}
    (h : exec i s = .next (respond i resp s)) (t : State) : exec i t = .next (respond i resp t) := by
  rcases exec_actsAlike i with ⟨given, hnext⟩ | ⟨ρ, hrefused⟩
  · obtain ⟨-, rfl, -⟩ := respond_inj.mp (answer_next.mp ((hnext s).symm.trans h))
    exact hnext t
  · exact absurd ((hrefused s).symm.trans h) nofun

/-- Settles O6: responding keeps the commands to come and puts one pair at the end of the trace. -/
theorem operationFrame : Obligations.OperationFrame := by
  intro i s t h
  obtain ⟨resp, rfl⟩ := eq_respond_of_exec_next h
  exact ⟨respond_pending i resp s, resp, respond_trace i resp s⟩

/-- Settles O9: a fault response has no outputs, and the pair it leaves in the trace is not read by any operation. -/
theorem faultLeavesNothingBehind : Obligations.FaultLeavesNothingBehind := by
  intro i f s _
  refine ⟨rfl, rfl, rfl, fun j resp => ⟨fun h => ?_, fun h => ?_⟩⟩
  · exact exec_respond_of_exec_respond h s
  · exact exec_respond_of_exec_respond h (respond i (.fault f) s)

end Sys2Proof.Proofs.Frame

/-! ## The stream: a run answers its commands one by one, in the order issued (R50, R66) -/

namespace Sys2Proof.Proofs.Stream

open Sys2Proof.Machine Sys2Proof.Safety Sys2Proof.Proofs.Scope

/-- What a step does with a command that decodes: the rest of the stream stays, and the instruction is executed. -/
theorem step_eq_exec {c : Command} {rest : List Command} {i : Instr} {trace : List (Instr × Response)}
    (h : decode c = .ok i) : step ⟨c :: rest, trace⟩ = exec i ⟨rest, trace⟩ := by
  have haccept : acceptCommand ⟨c :: rest, trace⟩ = some (c, ⟨rest, trace⟩) := acceptCommand_eq.mpr ⟨rfl, rfl⟩
  simp only [step, haccept, h]

/-- A step with a response takes one command off the stream and puts one pair at the end of the trace. -/
theorem step_answers_head {c : Command} {rest : List Command} {i : Instr} {resp : Response}
    {trace : List (Instr × Response)} (hdecode : decode c = .ok i) (hresp : responseTo i = some resp) :
    step ⟨c :: rest, trace⟩ = .next ⟨rest, trace ++ [(i, resp)]⟩ := by
  rw [step_eq_exec hdecode]
  exact (responseIsFunctionOfCommand i _).1 resp hresp

theorem run_zero (s : State) : Sys2Proof.core.run 0 s = .next s := rfl

/-- A run goes on from the state its first step answers. -/
theorem run_succ_of_step {s t : State} (h : step s = .next t) (k : Nat) :
    Sys2Proof.core.run (k + 1) s = Sys2Proof.core.run k t := by
  have hcore : Sys2Proof.core.step s = .next t := h
  simp only [Host.Core.run, hcore]

/-- Settles O8, by induction along the stream for every earlier trace: the first step answers the first command, and
the pair it adds belongs to the trace that the remaining commands find. -/
theorem runAnswersInOrder : Obligations.RunAnswersInOrder := by
  intro commands more pairs before h
  induction h generalizing before with
  | nil =>
    rw [List.append_nil]
    exact run_zero ⟨more, before⟩
  | @cons c p commands pairs hp _ ih =>
    obtain ⟨hdecode, hresp⟩ := hp
    have hstep : step ⟨c :: (commands ++ more), before⟩ = .next ⟨commands ++ more, before ++ [p]⟩ :=
      step_answers_head hdecode hresp
    calc Sys2Proof.core.run (commands.length + 1) ⟨c :: (commands ++ more), before⟩
        = Sys2Proof.core.run commands.length ⟨commands ++ more, before ++ [p]⟩ := run_succ_of_step hstep _
      _ = .next ⟨more, (before ++ [p]) ++ pairs⟩ := ih (before ++ [p])
      _ = .next ⟨more, before ++ p :: pairs⟩ := by rw [List.append_assoc, List.singleton_append]

end Sys2Proof.Proofs.Stream

/-! ## The channel: what one step can do (R60, R66) -/

namespace Sys2Proof.Proofs.Channel

open Sys2Proof.Machine Sys2Proof.Proofs.Frame Sys2Proof.Proofs.Stream

/-- All that a step with a next state can have done: it waited, or it answered the command at the head of the stream
and changed nothing else. -/
theorem step_next_cases {s t : State} (h : step s = .next t) :
    (s.pending = [] ∧ t = s) ∨
    ∃ c rest i resp, s.pending = c :: rest ∧ decode c = .ok i ∧
      exec i ⟨rest, s.trace⟩ = .next (respond i resp ⟨rest, s.trace⟩) ∧ t = respond i resp ⟨rest, s.trace⟩ := by
  obtain ⟨pending, trace⟩ := s
  cases pending with
  | nil => exact .inl ⟨rfl, (Host.Outcome.next.inj h).symm⟩
  | cons c rest =>
    cases hdecode : decode c with
    | error e =>
      simp only [step, acceptCommand, hdecode, reduceCtorEq] at h
    | ok i =>
      rw [step_eq_exec hdecode] at h
      obtain ⟨resp, rfl⟩ := eq_respond_of_exec_next h
      exact .inr ⟨c, rest, i, resp, rfl, hdecode, h, rfl⟩

/-- Settles O5: responding to the head of the stream adds the one pair of that command. -/
theorem stepGivesOneResponse : Obligations.StepGivesOneResponse := by
  intro s t h
  rcases step_next_cases h with hwait | ⟨c, rest, i, resp, hpending, hdecode, -, rfl⟩
  · exact .inl hwait
  · exact .inr ⟨c, i, resp, hpending, hdecode, rfl⟩

/-- Settles O2: the command is accepted, and what it decodes to is executed on what is left. -/
theorem stepRunsPresentedCommand : Obligations.StepRunsPresentedCommand := by
  rintro ⟨pending, trace⟩ c rest i rfl hdecode
  exact step_eq_exec hdecode

/-- Settles O3: with nothing to accept the step answers its own state. -/
theorem stepWaitsForCommand : Obligations.StepWaitsForCommand := by
  intro s h
  simp only [step, acceptCommand_none.mpr h]

theorem decode_tableCommand {nbits w : Nat} {i : Instr} (h : decodeTableWord nbits w = some i) :
    decode (tableCommand nbits w) = .ok i := by
  unfold decodeTableWord at h
  split at h
  next j hdecode => rw [hdecode, Option.some.inj h]
  next => exact absurd h nofun

/-- Settles O4: placing a word presents its command, and the step takes that command and leaves the state as it was. -/
theorem placedTableWordRunsNext : Obligations.PlacedTableWordRunsNext := by
  intro s nbits w i h
  exact stepRunsPresentedCommand _ _ _ i (withFetchWord_pending s nbits w) (decode_tableCommand h)

end Sys2Proof.Proofs.Channel

/-! ## The operation codes: what the decoder looks at, and what it gives (R65 to R71) -/

namespace Sys2Proof.Proofs.Codes

open Sys2Proof.Machine Sys2Proof.Safety

theorem formatOf_code (i : Instr) : formatOf i.code = some i.format := by
  cases i <;> rfl

theorem mem_reservedCodes_iff : ∀ op : BitVec 5, op ∈ reservedCodes ↔ formatOf op = none := by
  decide

/-- Every code is that of an operation or reserved (R67, R69). -/
theorem decode_total (c : Command) :
    (∃ i, decode c = .ok i ∧ i.code = c.op) ∨
      (c.op ∈ reservedCodes ∧ decode c = .error (.reservedOperation c.op)) := by
  unfold decode
  split
  case h_27 =>
    refine .inr ⟨?_, rfl⟩
    simp only [reservedCodes, List.mem_cons, List.not_mem_nil, or_false, ← BitVec.toNat_inj,
      BitVec.ofNat_eq_ofNat, BitVec.toNat_ofNat, Nat.reducePow, Nat.reduceMod]
    have := c.op.isLt
    simp only [imp_false] at *
    omega
  all_goals
    next hop => exact .inl ⟨_, rfl, BitVec.eq_of_toNat_eq hop.symm⟩

theorem code_eq_of_decode {c : Command} {i : Instr} (h : decode c = .ok i) : i.code = c.op := by
  rcases decode_total c with ⟨j, hj, hcode⟩ | ⟨-, herror⟩
  · rwa [Except.ok.inj (h.symm.trans hj)]
  · exact absurd (h.symm.trans herror) nofun

theorem formatOf_of_decode {c : Command} {i : Instr} (h : decode c = .ok i) : formatOf c.op = some i.format := by
  rw [← code_eq_of_decode h, formatOf_code]

theorem decode_of_reserved {c : Command} (h : c.op ∈ reservedCodes) :
    decode c = .error (.reservedOperation c.op) := by
  rcases decode_total c with ⟨i, hi, -⟩ | ⟨-, herror⟩
  · rw [mem_reservedCodes_iff, formatOf_of_decode hi] at h
    exact absurd h nofun
  · exact herror

/-- Settles O12: what decodes has a format, which a reserved code has not, and the step refuses as the decoder does. -/
theorem reservedCodesSelectNothing : Obligations.ReservedCodesSelectNothing := by
  intro c
  refine ⟨⟨fun h i hi => ?_, fun h => ?_⟩, fun h s => ?_⟩
  · exact absurd ((decode_of_reserved h).symm.trans hi) nofun
  · rcases decode_total c with ⟨i, hi, -⟩ | ⟨hreserved, -⟩
    · exact absurd hi (h i)
    · exact hreserved
  · simp only [step, acceptCommand, presentCommand_pending, decode_of_reserved h]

/-! ### The operands -/

/-- What the 32-bit port `n` carries is a signed 32-bit integer (R61, R71). -/
theorem portFits_toInt (n : BitVec 32) : portFits n.toInt = true := by
  have hlo := BitVec.le_toInt n
  have hhi := BitVec.toInt_lt (x := n)
  simp only [portFits, Bool.and_eq_true, decide_eq_true_eq]
  omega

/-- The decoder takes each `n` from the port, and that is all that well-formedness asks of it. -/
theorem wellFormed_of_decode {c : Command} {i : Instr} (h : decode c = .ok i) : i.wellFormed = true := by
  unfold decode at h
  split at h <;> cases h <;> simp only [Instr.wellFormed, portFits_toInt]

/-- The 26 lemmas of Laws/PerInstr, as one. -/
theorem decode_encode {i : Instr} (h : i.wellFormed = true) : decode (encode i) = .ok i := by
  cases i with
  | loadv n vec => exact Laws.DecodeEncode.loadv n vec h
  | fromint n => exact Laws.DecodeEncode.fromint n h
  | lsl a n => exact Laws.DecodeEncode.lsl a n h
  | lsr a n => exact Laws.DecodeEncode.lsr a n h
  | asr a n => exact Laws.DecodeEncode.asr a n h
  | trunc a n => exact Laws.DecodeEncode.trunc a n h
  | load | fromf64 | msb | low64 | add | sub | ainv | not | mul | div | ssl | ssr | align | cmp | eq | ne | gt | ge
    | lt | le => rfl

/-- Settles O22: the decoder keeps code and format, fits `n` to its port, and so the encoder has the way back. -/
theorem decodedIsWellFormed : Obligations.DecodedIsWellFormed := by
  intro c i h
  have hwf := wellFormed_of_decode h
  exact ⟨hwf, code_eq_of_decode h, formatOf_of_decode h, decode_encode hwf⟩

/-- The command with every port that the format does not read at zero (R65, R68). -/
def readPorts (fmt : Format) (c : Command) : Command where
  op := c.op
  a := if Reads.a fmt then c.a else Value.zero
  b := if Reads.b fmt then c.b else Value.zero
  n := if Reads.n fmt then c.n else 0
  cin := if Reads.cin fmt then c.cin else 0
  f := if Reads.f fmt then c.f else 0
  vec := if Reads.vec fmt then c.vec else []

/-- The decoder does not see the ports outside the format (R68): code by code, it takes only what the format reads. -/
theorem decode_readPorts {c : Command} {fmt : Format} (h : formatOf c.op = some fmt) :
    decode (readPorts fmt c) = decode c := by
  obtain ⟨⟨⟨op, hop⟩⟩, a, b, n, cin, f, vec⟩ := c
  interval_cases op <;> cases h <;> rfl

/-- Settles O23: two commands that agree on what the format reads are alike with the other ports at zero. -/
theorem decodeIgnoresUnreadPorts : Obligations.DecodeIgnoresUnreadPorts := by
  refine ⟨decode_total, fun c c' fmt hop hfmt ha hb hn hcin hf hvec => ?_⟩
  have hports : readPorts fmt c = readPorts fmt c' := by
    simp only [readPorts, Command.mk.injEq]
    exact ⟨hop, ite_congr rfl ha fun _ => rfl, ite_congr rfl hb fun _ => rfl, ite_congr rfl hn fun _ => rfl,
      ite_congr rfl hcin fun _ => rfl, ite_congr rfl hf fun _ => rfl, ite_congr rfl hvec fun _ => rfl⟩
  rw [← decode_readPorts hfmt, hports, decode_readPorts (hop ▸ hfmt)]

end Sys2Proof.Proofs.Codes

/-! ## The flat words: where they hold the ports and the outputs (R62, R63) -/

namespace Sys2Proof.Proofs.Words

open Sys2Proof.Machine Sys2Proof.Safety Sys2Proof.Proofs.Codes

/-- Bit `i` of a value is bit `i` of its pattern (R11). -/
theorem getLsbD_toBits (x : Value) (i : Nat) : x.toBits.getLsbD i = x.bit i := by
  rw [BitVec.getLsbD, Value.toNat_toBits, Value.bit]

/-- Where the pattern of a value stands in a word, its bits stand. -/
theorem getLsbD_of_extract_eq_toBits {w k : Nat} {word : BitVec w} {x : Value}
    (h : word.extractLsb' k 113 = x.toBits) {i : Nat} (hi : i < 113) : word.getLsbD (k + i) = x.bit i := by
  rw [← getLsbD_toBits, ← h, BitVec.getLsbD_extractLsb', decide_eq_true hi, Bool.true_and]

/-! ### The command word -/

theorem packWord_op (c : Command) : (packWord c).extractLsb' 0 5 = c.op :=
  BitVec.extractLsb'_append_eq_right

theorem packWord_cin (c : Command) : (packWord c).extractLsb' 5 1 = c.cin := by
  rw [packWord, BitVec.extractLsb'_append_eq_of_le (by decide)]
  exact BitVec.extractLsb'_append_eq_right

theorem packWord_n (c : Command) : (packWord c).extractLsb' 6 32 = c.n := by
  rw [packWord]
  repeat rw [BitVec.extractLsb'_append_eq_of_le (by decide)]
  exact BitVec.extractLsb'_append_eq_right

theorem packWord_a (c : Command) : (packWord c).extractLsb' 38 113 = c.a.toBits := by
  rw [packWord]
  repeat rw [BitVec.extractLsb'_append_eq_of_le (by decide)]
  exact BitVec.extractLsb'_append_eq_right

theorem packWord_b (c : Command) : (packWord c).extractLsb' 151 113 = c.b.toBits := by
  rw [packWord]
  repeat rw [BitVec.extractLsb'_append_eq_of_le (by decide)]
  exact BitVec.extractLsb'_append_eq_right

theorem packWord_f (c : Command) : (packWord c).extractLsb' 264 64 = c.f := by
  rw [packWord]
  repeat rw [BitVec.extractLsb'_append_eq_of_le (by decide)]
  exact BitVec.extractLsb'_eq_self

/-- Settles O19: field by field, as the word is put together; `vec` takes no part in it. -/
theorem commandWordLayout : Obligations.CommandWordLayout := by
  intro c
  exact ⟨packWord_op c, packWord_cin c, packWord_n c, fun _ => getLsbD_of_extract_eq_toBits (packWord_a c),
    fun _ => getLsbD_of_extract_eq_toBits (packWord_b c), packWord_f c, fun _ => rfl⟩

/-- Unpacking takes each port from its field of the word. -/
theorem unpackWord_eq (cw : BitVec 328) (vec : List VecWord) : unpackWord cw vec =
    { op := cw.extractLsb' 0 5, cin := cw.extractLsb' 5 1, n := cw.extractLsb' 6 32,
      a := Value.ofBits (cw.extractLsb' 38 113), b := Value.ofBits (cw.extractLsb' 151 113),
      f := cw.extractLsb' 264 64, vec := vec } := rfl

theorem unpackWord_packWord (c : Command) : unpackWord (packWord c) c.vec = c := by
  simp only [unpackWord_eq, packWord_op, packWord_cin, packWord_n, packWord_a, packWord_b, packWord_f,
    Value.ofBits_toBits]

theorem packWord_unpackWord (cw : BitVec 328) (vec : List VecWord) : packWord (unpackWord cw vec) = cw := by
  simp only [unpackWord_eq, packWord, Value.toBits_ofBits]
  repeat rw [BitVec.extractLsb'_append_extractLsb'_eq_extractLsb' (by decide)]
  exact BitVec.extractLsb'_eq_self

/-- Settles O20: the six fields of the word are the six ports, and together they are the whole word. -/
theorem commandWordInverse : Obligations.CommandWordInverse :=
  ⟨unpackWord_packWord, packWord_unpackWord⟩

/-- Settles O21: the word gives back the ports the encoder set, and these decode to the instruction. -/
theorem decodeEncodeCommandWord : Obligations.DecodeEncodeCommandWord := by
  intro i h
  rw [decodeWord, unpackWord_packWord, decode_encode h]

/-- Settles O24: six words of fixed content. -/
theorem decodesWordsOfTheSpec : Obligations.DecodesWordsOfTheSpec := by
  unfold Obligations.DecodesWordsOfTheSpec
  decide +kernel

/-! ### The response word -/

theorem responseWord_status (resp : Response) (u : BitVec 180) :
    (resp.word u).extractLsb' 0 2 = resp.status :=
  BitVec.extractLsb'_append_eq_right

theorem responseWord_flag (resp : Response) (u : BitVec 180) :
    (resp.word u).extractLsb' 2 1 = resp.c.getD (u.extractLsb' 2 1) := by
  rw [Response.word, BitVec.extractLsb'_append_eq_of_le (by decide)]
  exact BitVec.extractLsb'_append_eq_right

theorem responseWord_value (resp : Response) (u : BitVec 180) :
    (resp.word u).extractLsb' 3 113 = (resp.r.map Value.toBits).getD (u.extractLsb' 3 113) := by
  rw [Response.word]
  repeat rw [BitVec.extractLsb'_append_eq_of_le (by decide)]
  exact BitVec.extractLsb'_append_eq_right

theorem responseWord_scalar (resp : Response) (u : BitVec 180) :
    (resp.word u).extractLsb' 116 64 = resp.s.getD (u.extractLsb' 116 64) := by
  rw [Response.word]
  repeat rw [BitVec.extractLsb'_append_eq_of_le (by decide)]
  exact BitVec.extractLsb'_eq_self

/-- Settles O16: an output that is carried stands in its field. -/
theorem responseWordLayout : Obligations.ResponseWordLayout := by
  intro resp u
  refine ⟨responseWord_status resp u, fun c hc => ?_, fun r hr i => ?_, fun x hx => ?_⟩
  · rw [responseWord_flag, hc, Option.getD_some]
  · apply getLsbD_of_extract_eq_toBits
    rw [responseWord_value, hr, Option.map_some, Option.getD_some]
  · rw [responseWord_scalar, hx, Option.getD_some]

end Sys2Proof.Proofs.Words

/-! ## The closed forms: each operation computes what its rule says on integers (R100 to R206) -/

namespace Sys2Proof.Proofs.ClosedForms

open Sys2Proof.Machine Sys2Proof.Safety

/-! ### Construction and queries (R102, R106, R107) -/

theorem badOffset_iff {n : Int} {vec : List VecWord} :
    badOffset n vec = true ↔ n < 0 ∨ n + 5 > (vec.length : Int) := by
  simp only [badOffset, Bool.or_eq_true, decide_eq_true_eq]

theorem limbsFit_iff {n : Int} {vec : List VecWord} : limbsFit n vec = true ↔ wordsInRange vec n.toNat := by
  simp only [limbsFit, Bool.and_eq_true, decide_eq_true_eq]
  simp only [vecWord, wordsInRange, Nat.forall_lt_succ_right, Nat.not_lt_zero, false_implies, implies_true, true_and]

/-- Words that fit their limbs lose nothing on the way into them. -/
theorem V_vecValue {n : Int} {vec : List VecWord} (h : wordsInRange vec n.toNat) :
    (vecValue vec n).V = wordSum vec n.toNat := by
  obtain ⟨hlow, h4⟩ := h
  have h0 := hlow 0 (by decide)
  have h1 := hlow 1 (by decide)
  have h2 := hlow 2 (by decide)
  have h3 := hlow 3 (by decide)
  simp only [vecValue, vecWord, lowLimb, Value.V, wordSum, BitVec.toNat_ofNat, Nat.add_zero] at *
  omega

theorem msb_eq_flagOf (a : Value) : a.msb = flagOf (decide (2 ^ 112 ≤ a.V)) := by
  have := a.V_lt
  rw [← BitVec.toNat_inj, toNat_flagOf, Value.msb, a.w4_toNat]
  simp only [decide_eq_true_eq]
  split_ifs <;> omega

/-- The two limbs and the byte do not overlap, so putting them together is adding them. -/
theorem fxLow64_eq (a : Value) : fxLow64 a = BitVec.ofNat 64 (a.V % 2 ^ 64) := by
  have h0 := a.w0.isLt
  have h1 := a.w1.isLt
  have hlow : a.w0.toNat ||| a.w1.toNat <<< 28 = a.w1.toNat <<< 28 + a.w0.toNat := by
    rw [Nat.or_comm, Nat.shiftLeft_add_eq_or_of_lt h0]
  have hlt : a.w1.toNat <<< 28 + a.w0.toNat < 2 ^ 56 := by
    rw [Nat.shiftLeft_eq]; omega
  have hor : (fxLow64 a).toNat = (a.w2.toNat % 2 ^ 8) <<< 56 + (a.w1.toNat <<< 28 + a.w0.toNat) := by
    have hw0 : a.w0.toNat % 2 ^ 64 = a.w0.toNat := by omega
    have hw1 : (a.w1.toNat % 2 ^ 64) <<< 28 % 2 ^ 64 = a.w1.toNat <<< 28 := by
      simp only [Nat.shiftLeft_eq]; omega
    have hw2 : (a.w2.toNat % 2 ^ 8 % 2 ^ 64) <<< 56 % 2 ^ 64 = (a.w2.toNat % 2 ^ 8) <<< 56 := by
      simp only [Nat.shiftLeft_eq]; omega
    have hbyte : (a.w2 &&& 0xFF).toNat = a.w2.toNat % 2 ^ 8 := Nat.and_two_pow_sub_one_eq_mod _ 8
    rw [Nat.shiftLeft_add_eq_or_of_lt hlt, ← hlow, Nat.or_comm]
    simp only [fxLow64, BitVec.toNat_or, BitVec.toNat_shiftLeft, BitVec.toNat_setWidth, hbyte, hw0, hw1, hw2]
  rw [← BitVec.toNat_inj, hor]
  simp only [BitVec.toNat_ofNat, Value.V, Nat.shiftLeft_eq]
  omega

/-! ### MUL (R141) -/

/-- A value is the number its limbs write in base 2^28. -/
theorem V_eq_ofDigits (x : Value) :
    x.V = Nat.ofDigits (2 ^ 28) [x.w0.toNat, x.w1.toNat, x.w2.toNat, x.w3.toNat, x.w4.toNat] := by
  simp only [Value.V, Nat.ofDigits_cons, Nat.ofDigits_nil]
  omega

/-- The accumulators write the product, in base 2^28 and in any other. -/
theorem ofDigits_convolve (B : Nat) (a b : Value) :
    Nat.ofDigits B (convolve a b) =
      Nat.ofDigits B [a.w0.toNat, a.w1.toNat, a.w2.toNat, a.w3.toNat, a.w4.toNat] *
        Nat.ofDigits B [b.w0.toNat, b.w1.toNat, b.w2.toNat, b.w3.toNat, b.w4.toNat] := by
  simp only [convolve, Nat.ofDigits_cons, Nat.ofDigits_nil]
  ring

/-- Carry normalisation gives the base-2^28 digits of the number that the accumulators write. -/
theorem toNat_normalise (accs : List Nat) (carry k : Nat) (hk : k < accs.length) :
    ((normalise carry accs).getD k 0).toNat =
      (carry + Nat.ofDigits (2 ^ 28) accs) / (2 ^ 28) ^ k % 2 ^ 28 := by
  induction accs generalizing carry k with
  | nil => exact absurd hk (Nat.not_lt_zero k)
  | cons acc rest ih =>
    rw [Nat.ofDigits_cons, normalise]
    cases k with
    | zero =>
      simp only [List.getD_cons_zero, lowLimb, BitVec.toNat_ofNat, pow_zero, Nat.div_one]
      omega
    | succ k =>
      have hcarry : (carry + (acc + 2 ^ 28 * Nat.ofDigits (2 ^ 28) rest)) / 2 ^ 28 =
          carryOn (acc + carry) + Nat.ofDigits (2 ^ 28) rest := by
        rw [carryOn]; omega
      rw [List.getD_cons_succ, ih _ _ (Nat.lt_of_succ_lt_succ hk), pow_succ' (2 ^ 28) k, ← Nat.div_div_eq_div_mul,
        hcarry]

/-- Position `k` of the normalised product is digit `k` of the product of the integers. -/
theorem toNat_normalise_convolve (a b : Value) (k : Nat) (hk : k < 9) :
    ((normalise 0 (convolve a b)).getD k 0).toNat = a.V * b.V / 2 ^ (28 * k) % 2 ^ 28 := by
  rw [toNat_normalise _ _ _ hk, ofDigits_convolve, ← V_eq_ofDigits, ← V_eq_ofDigits, Nat.zero_add, pow_mul]

theorem V_fxMul (a b : Value) :
    (fxMul a b).1.V = a.V * b.V / 2 ^ 112 % 2 ^ 113 ∧ (fxMul a b).2.toNat = a.V * b.V / 2 ^ 112 / 2 ^ 113 := by
  have hlt : a.V * b.V < 2 ^ 113 * 2 ^ 113 := Nat.mul_lt_mul'' a.V_lt b.V_lt
  have hdigit := toNat_normalise_convolve a b
  simp only [fxMul, Value.V, topBit, carryBit, BitVec.toNat_ofNat] at *
  rw [hdigit 4 (by decide), hdigit 5 (by decide), hdigit 6 (by decide), hdigit 7 (by decide), hdigit 8 (by decide)]
  generalize a.V * b.V = T at *
  omega

/-! ### ALIGN and DIV (R151, R178) -/

/-- The count that brings bit 112 of an integer to its place is the one count there is. -/
theorem alignShift_eq {v k : Nat} (hv : v ≠ 0) (hk : k ≤ 112) (hlo : 2 ^ 112 ≤ v * 2 ^ k)
    (hhi : v * 2 ^ k < 2 ^ 113) :
    alignShift v = k := by
  have hpos : 0 < 2 ^ k := by positivity
  have hlog : v.log2 = 112 - k := by
    rw [Nat.log2_eq_iff hv]
    constructor
    · apply Nat.le_of_mul_le_mul_right _ hpos
      rwa [← pow_add, Nat.sub_add_cancel hk]
    · apply Nat.lt_of_mul_lt_mul_right (a := 2 ^ k)
      rwa [← pow_add, show 112 - k + 1 + k = 113 by omega]
  rw [alignShift, if_neg hv, hlog]
  omega

theorem fxAlign_eq (a : Value) : (fxAlign a).2 = alignShift a.V ∧ (fxAlign a).1.V = aligned a.V := by
  obtain ⟨hk, hV, hzero, hmsb⟩ := fxAlign_spec a
  have hshift : alignShift a.V = (fxAlign a).2 := by
    by_cases ha : a.V = 0
    · rw [hzero ha, alignShift, if_pos ha]
    · exact alignShift_eq ha hk (hV ▸ hmsb ha) (hV ▸ (fxAlign a).1.V_lt)
  exact ⟨hshift.symm, by rw [hV, aligned, hshift]⟩

/-- The machine's pair of dividend and quotient stands for a pair of integers, the quotient up to the bits that 113
bits drop. -/
def LoopAgrees (AQ : Value × Value) (aq : Nat × Nat) : Prop := AQ.1.V = aq.1 ∧ AQ.2.V = aq.2 % 2 ^ 113

theorem divStep_agrees {AQ : Value × Value} {aq : Nat × Nat} (B : Value) (h : LoopAgrees AQ aq) :
    LoopAgrees (divStep B AQ) (divIter B.V aq) := by
  obtain ⟨A, Q⟩ := AQ
  obtain ⟨a, q⟩ := aq
  obtain ⟨rfl, hQ⟩ : A.V = a ∧ Q.V = q % 2 ^ 113 := h
  have hA := A.V_lt
  simp only [divStep, divIter, fxGe_eq, flagOf_eq_one, decide_eq_true_eq, ge_iff_le]
  split_ifs with hle
  · simp only [LoopAgrees, V_fxSsl_zero, V_fxSsl_one, V_fxSub, hQ]
    omega
  · simp only [LoopAgrees, V_fxSsl_zero, hQ, true_and]
    omega

theorem divLoop_agrees (A B : Value) (k : Nat) :
    LoopAgrees ((divStep B)^[k] (A, Value.zero)) ((divIter B.V)^[k] (A.V, 0)) := by
  induction k with
  | zero => exact ⟨rfl, Value.V_zero⟩
  | succ k ih =>
    rw [Function.iterate_succ_apply', Function.iterate_succ_apply']
    exact divStep_agrees B ih

/-- Each iteration appends one bit to the quotient. -/
theorem divIter_quotient_lt (A B k : Nat) : ((divIter B)^[k] (A, 0)).2 < 2 ^ k := by
  induction k with
  | zero => exact Nat.one_pos
  | succ k ih =>
    rw [Function.iterate_succ_apply', divIter, pow_succ]
    split_ifs <;> dsimp only <;> omega

theorem V_divLoop (A B : Value) : (divLoop A B).V = divQuotient A.V B.V := by
  rw [divLoop, (divLoop_agrees A B _).2, Nat.mod_eq_of_lt (divIter_quotient_lt _ _ _), divQuotient]

theorem V_divRescale (Q : Value) (m n : Nat) : (divRescale Q ((m : Int) - n)).V = divScale Q.V m n := by
  rw [divRescale, divScale]
  by_cases h : n ≤ m
  · rw [if_pos h, if_pos (by omega), V_fxLsr, show ((m : Int) - n).toNat = m - n by omega]
  · rw [if_neg h, if_neg (by omega), V_fxLsl, show (-((m : Int) - n)).toNat = n - m by omega]

theorem V_fxDiv (a b : Value) :
    (fxDiv a b).V = divScale (divQuotient (aligned a.V) (aligned b.V)) (alignShift a.V) (alignShift b.V) := by
  obtain ⟨hcountA, hA⟩ := fxAlign_eq a
  obtain ⟨hcountB, hB⟩ := fxAlign_eq b
  rw [fxDiv, V_divRescale, V_divLoop, hA, hB, hcountA, hcountB]

theorem fxEq_zero_eq_one {b : Value} : fxEq b Value.zero = 1 ↔ b = Value.zero := by
  rw [fxEq_eq, flagOf_eq_one, decide_eq_true_eq, Value.V_inj]

/-! ### FROMF64 (R104) -/

/-- After `k` extractions from `M / 2^d` the bits taken and the residual, which is below 2, still make up the number. -/
def Extracted (d M k : Nat) (yR : Nat × Value) : Prop :=
  yR.2.V * 2 ^ (d + 1) + yR.1 = M * 2 ^ k ∧ yR.1 < 2 ^ (d + 1) ∧ yR.2.V < 2 ^ k

theorem f64Step_extracted {d M k : Nat} {yR : Nat × Value} (hk : k < 113) (h : Extracted d M k yR) :
    Extracted d M (k + 1) (f64Step d yR) := by
  obtain ⟨y, R⟩ := yR
  obtain ⟨hsum, hy, hR⟩ : R.V * 2 ^ (d + 1) + y = M * 2 ^ k ∧ y < 2 ^ (d + 1) ∧ R.V < 2 ^ k := h
  have hpow : 2 ^ (k + 1) ≤ 2 ^ 113 := Nat.pow_le_pow_right (by decide) hk
  have hmod : y % 2 ^ d < 2 ^ d := Nat.mod_lt _ (by positivity)
  have hbit : y / 2 ^ d < 2 := by
    rwa [Nat.div_lt_iff_lt_mul (by positivity), ← pow_succ']
  have hV : (fxSsl R (BitVec.ofNat 1 (y / 2 ^ d))).V = 2 * R.V + y / 2 ^ d := by
    rw [V_fxSsl, BitVec.toNat_ofNat, Nat.mod_eq_of_lt hbit]
    exact Nat.mod_eq_of_lt (by omega)
  have hdiv := Nat.div_add_mod y (2 ^ d)
  rw [pow_succ] at hsum
  simp only [Extracted, f64Step, Nat.shiftRight_eq_div_pow, Nat.shiftLeft_eq, ← Nat.mod_eq_sub_div_mul, hV, pow_succ]
  exact ⟨by linarith, by omega, by omega⟩

theorem f64Step_iterate_extracted {d M : Nat} (hM : M < 2 ^ (d + 1)) (k : Nat) (hk : k ≤ 113) :
    Extracted d M k ((f64Step d)^[k] (M, Value.zero)) := by
  induction k with
  | zero =>
    rw [Function.iterate_zero_apply, Extracted, Value.V_zero, pow_zero]
    omega
  | succ k ih =>
    rw [Function.iterate_succ_apply']
    exact f64Step_extracted hk (ih (Nat.le_of_succ_le hk))

/-- The size of the number `M / 2^D`: below 2 where the exponent is (R104). -/
theorem f64Mant_lt {f : Scalar} (h : f64Exp f < 1024) : f64Mant f < 2 ^ (f64Den f + 1) := by
  have hfrac : f64Frac f < 2 ^ 52 := (f.extractLsb' 0 52).isLt
  have hmant : f64Mant f < 2 ^ 53 := by
    rw [f64Mant]; split_ifs <;> omega
  have hden : 52 ≤ f64Den f := by
    rw [f64Den]; split_ifs <;> omega
  exact hmant.trans_le (Nat.pow_le_pow_right (by decide) (by omega))

/-- The number is the sign times `M / 2^D` (R104). -/
theorem binary64_eq {f : Scalar} (h : f64Exp f < 1024) :
    binary64 f = (if f64Sign f = 1 then -1 else 1) * ((f64Mant f : ℚ) / (2 ^ f64Den f : ℕ)) := by
  simp only [binary64, f64Sign_eq_one, f64Mant, f64Den, ← f64Exp_eq, ← f64Frac_eq]
  congr 1
  split_ifs with he
  · rw [zpow_neg, div_eq_mul_inv]
    norm_cast
  · have hexp : ((f64Exp f : ℤ) - 1075) = -((1075 - f64Exp f : ℕ) : ℤ) := by omega
    rw [hexp, zpow_neg, div_eq_mul_inv, zpow_natCast]
    push_cast
    rfl

/-- The 113 extractions take the integer part of the number times 2^112. -/
theorem V_fxFromF64 {f : Scalar} (h : f64Exp f < 1024) :
    (fxFromF64 f).V = f64Mant f * 2 ^ 112 / 2 ^ f64Den f := by
  obtain ⟨hsum, hres, -⟩ := f64Step_iterate_extracted (f64Mant_lt h) 113 le_rfl
  rw [pow_succ] at hsum hres
  exact (Nat.div_eq_of_lt_le (by rw [fxFromF64]; linarith) (by rw [fxFromF64]; linarith)).symm

theorem outsideRange_of_exp_ge {f : Scalar} (h : 1024 ≤ f64Exp f) : outsideRange f := by
  have hmag : (2 : ℚ) ≤ (2 ^ 52 + (fractionOf f : ℚ)) * 2 ^ ((exponentOf f : ℤ) - 1075) := by
    have hexp : (2 : ℚ) ^ (-51 : ℤ) ≤ 2 ^ ((exponentOf f : ℤ) - 1075) :=
      zpow_le_zpow_right₀ (by norm_num) (by rw [← f64Exp_eq]; omega)
    calc (2 : ℚ) = 2 ^ 52 * 2 ^ (-51 : ℤ) := by norm_num
      _ ≤ (2 ^ 52 + (fractionOf f : ℚ)) * 2 ^ ((exponentOf f : ℤ) - 1075) := by
        gcongr
        exact le_add_of_nonneg_right (Nat.cast_nonneg _)
  have hne : exponentOf f ≠ 0 := by rw [← f64Exp_eq]; omega
  rw [outsideRange, binary64, if_neg hne]
  split_ifs
  · exact .inr (.inl (by linarith))
  · exact .inr (.inr (by linarith))

theorem outsideRange_iff_of_exp_lt {f : Scalar} (h : f64Exp f < 1024) :
    outsideRange f ↔ f64Sign f = 1 ∧ f64Mant f ≠ 0 := by
  have hlt : (f64Mant f : ℚ) / (2 ^ f64Den f : ℕ) < 2 := by
    rw [div_lt_iff₀ (by positivity)]
    exact_mod_cast pow_succ' 2 (f64Den f) ▸ f64Mant_lt h
  have hnonneg : (0 : ℚ) ≤ (f64Mant f : ℚ) / (2 ^ f64Den f : ℕ) := by positivity
  have hpos : (0 : ℚ) < (f64Mant f : ℚ) / (2 ^ f64Den f : ℕ) ↔ f64Mant f ≠ 0 := by
    rw [div_pos_iff_of_pos_right (by positivity), Nat.cast_pos, Nat.pos_iff_ne_zero]
  have hexp : exponentOf f ≠ 0x7FF := by rw [← f64Exp_eq]; omega
  rw [outsideRange, binary64_eq h, ← hpos]
  generalize (f64Mant f : ℚ) / (2 ^ f64Den f : ℕ) = x at *
  by_cases hsign : f64Sign f = 1
  · simp only [hexp, hsign, if_true, false_or, true_and]
    constructor
    · rintro (h | h) <;> linarith
    · exact fun h => .inl (by linarith)
  · simp only [hexp, hsign, if_false, false_or, false_and, iff_false]
    rintro (h | h) <;> linarith

theorem f64Outside_iff {f : Scalar} : f64Outside f = true ↔ outsideRange f := by
  simp only [f64Outside, Bool.or_eq_true, Bool.and_eq_true, decide_eq_true_eq]
  rcases Nat.lt_or_ge (f64Exp f) 1024 with h | h
  · have hinf : f64Exp f ≠ 0x7FF := by omega
    simp only [outsideRange_iff_of_exp_lt h, hinf, Nat.not_le_of_lt h, false_or, or_false]
  · exact iff_of_true (.inr h) (outsideRange_of_exp_ge h)

/-- For a number in [0, 2) the extractions take the integer part of x·2^112 (R104). -/
theorem V_fxFromF64_eq_floor {f : Scalar} (h : ¬ outsideRange f) :
    (fxFromF64 f).V = ⌊binary64 f * 2 ^ 112⌋.toNat := by
  have hexp : f64Exp f < 1024 := Nat.lt_of_not_le fun hge => h (outsideRange_of_exp_ge hge)
  have hsign : ¬ (f64Sign f = 1 ∧ f64Mant f ≠ 0) := fun hs => h ((outsideRange_iff_of_exp_lt hexp).mpr hs)
  have hx : binary64 f * 2 ^ 112 = ((f64Mant f * 2 ^ 112 : ℕ) : ℚ) / (2 ^ f64Den f : ℕ) := by
    rw [binary64_eq hexp]
    by_cases hs : f64Sign f = 1
    · have hzero : f64Mant f = 0 := by tauto
      simp [hzero]
    · rw [if_neg hs]
      push_cast
      ring
  rw [V_fxFromF64 hexp, hx, Int.floor_toNat, Nat.floor_div_eq_div]

end Sys2Proof.Proofs.ClosedForms

/-! ## The rules: every response is the one its rule gives (R66, R222) -/

namespace Sys2Proof.Proofs.Rules

open Sys2Proof.Machine Sys2Proof.Safety
open Sys2Proof.Proofs.Channel Sys2Proof.Proofs.Codes Sys2Proof.Proofs.Words Sys2Proof.Proofs.ClosedForms

theorem givesTruth_flagOf (p : Prop) [Decidable p] : givesTruth (.flag (flagOf (decide p))) p := by
  by_cases h : p <;> simp [givesTruth, h]

/-- CMP answers the order of the integers (R200). -/
theorem computes_cmp (a b : Value) : computes (.cmp a b) (.scalar (orderScalar (fxCmp a b))) := by
  rw [fxCmp_eq]
  refine ⟨fun h => ?_, fun h => ?_, fun h => ?_⟩
  · rw [if_pos h]; rfl
  · rw [if_neg (by omega), if_neg (by omega)]; rfl
  · rw [if_neg (by omega), if_pos h]; rfl

theorem computes_align (a : Value) :
    computes (.align a) (.valueScalar (fxAlign a).1 (BitVec.ofNat 64 (fxAlign a).2)) := by
  obtain ⟨hcount, hV⟩ := fxAlign_eq a
  exact ⟨_, by rw [hcount], hV⟩

/-! ### From the meaning of an operation to its rule -/

/-- Every response that the meaning `m` of the operation `i` gives, in any state, is the one the rule of `i` gives. -/
def GivesByRule (i : Instr) (m : State → Host.Outcome State Fault Refusal) : Prop :=
  ∀ (s : State) (resp : Response), m s = .next (respond i resp s) → meetsRule i resp

theorem answer_givesByRule {i : Instr} {resp : Response} (h : meetsRule i resp) : GivesByRule i (answer i resp) := by
  intro s given hgiven
  obtain ⟨-, rfl, -⟩ := respond_inj.mp (answer_next.mp hgiven)
  exact h

/-- An operation that no cause can fault. -/
theorem answer_computes {i : Instr} {resp : Response} (hcauses : ∀ f, ¬ causes i f) (h : computes i resp) :
    GivesByRule i (answer i resp) :=
  answer_givesByRule (.inr ⟨hcauses, h⟩)

/-- An operation with one fault `f`, which it raises exactly on the cause `p`, before anything else. -/
theorem ite_raise_givesByRule {i : Instr} {f : Fault} {p : Prop} [Decidable p]
    {m : State → Host.Outcome State Fault Refusal} (hcauses : ∀ g, causes i g ↔ g = f ∧ p)
    (hm : ¬ p → (∀ g, ¬ causes i g) → GivesByRule i m) :
    GivesByRule i fun s => if p then raise i f s else m s := by
  by_cases hp : p
  · simp only [if_pos hp]
    exact answer_givesByRule (.inl ⟨f, (hcauses f).mpr ⟨rfl, hp⟩, rfl⟩)
  · simp only [if_neg hp]
    exact hm hp fun g hg => hp ((hcauses g).mp hg).2

theorem execLoadv_givesByRule (n : Int) (vec : List VecWord) : GivesByRule (.loadv n vec) (execLoadv n vec) := by
  refine ite_raise_givesByRule (fun g => and_congr_right' badOffset_iff.symm) fun _ hcauses => ?_
  by_cases hfit : limbsFit n vec = true
  · have hrange := limbsFit_iff.mp hfit
    simp only [if_pos hfit]
    exact answer_computes hcauses ⟨hrange, _, rfl, V_vecValue hrange⟩
  · simp only [if_neg hfit]
    exact fun _ _ h => absurd h nofun

theorem execFromint_givesByRule (n : Int) : GivesByRule (.fromint n) (execFromint n) := by
  by_cases h0 : n = 0
  · subst h0
    exact answer_computes (fun f hf => hf.2.1 rfl) ⟨Value.zero, rfl, rfl⟩
  by_cases h1 : n = 1
  · subst h1
    exact answer_computes (fun f hf => hf.2.2 rfl) ⟨Value.one, rfl, rfl⟩
  · have hcause : causes (.fromint n) .overflow := ⟨rfl, h0, h1⟩
    intro s resp h
    simp only [execFromint, if_neg h0, if_neg h1] at h
    exact answer_givesByRule (.inl ⟨.overflow, hcause, rfl⟩) s resp h

/-- All 26 operations. -/
theorem exec_givesByRule (i : Instr) : GivesByRule i (exec i) := by
  cases i with
  | load a => exact answer_computes (fun _ => id) rfl
  | loadv n vec => exact execLoadv_givesByRule n vec
  | fromint n => exact execFromint_givesByRule n
  | fromf64 f =>
    exact ite_raise_givesByRule (fun _ => and_congr_right' f64Outside_iff.symm) fun hin hcauses =>
      answer_computes hcauses ⟨_, rfl, V_fxFromF64_eq_floor (mt f64Outside_iff.mpr hin)⟩
  | msb a => exact answer_computes (fun _ => id) (msb_eq_flagOf a ▸ givesTruth_flagOf _)
  | low64 a => exact answer_computes (fun _ => id) (congrArg Response.scalar (fxLow64_eq a))
  | add a b => exact answer_computes (fun _ => id) ⟨_, _, rfl, V_fxAdd a b⟩
  | sub a b => exact answer_computes (fun _ => id) ⟨_, _, rfl, V_fxSub a b⟩
  | ainv a => exact answer_computes (fun _ => id) ⟨_, _, rfl, V_fxAInv a⟩
  | not a => exact answer_computes (fun _ => id) ⟨_, rfl, V_fxNot a⟩
  | mul a b => exact answer_computes (fun _ => id) ⟨_, _, rfl, V_fxMul a b⟩
  | div a b =>
    exact ite_raise_givesByRule (fun _ => and_congr_right' fxEq_zero_eq_one.symm) fun _ hcauses =>
      answer_computes hcauses ⟨_, rfl, V_fxDiv a b⟩
  | ssl a cin => exact answer_computes (fun _ => id) ⟨_, rfl, V_fxSsl a cin⟩
  | ssr a cin => exact answer_computes (fun _ => id) ⟨_, rfl, V_fxSsr a cin⟩
  | lsl a n =>
    exact ite_raise_givesByRule (fun _ => Iff.rfl) fun _ hcauses => answer_computes hcauses ⟨_, rfl, V_fxLsl a _⟩
  | lsr a n =>
    exact ite_raise_givesByRule (fun _ => Iff.rfl) fun _ hcauses => answer_computes hcauses ⟨_, rfl, V_fxLsr a _⟩
  | asr a n =>
    exact ite_raise_givesByRule (fun _ => Iff.rfl) fun _ hcauses => answer_computes hcauses ⟨_, rfl, V_fxAsr a _⟩
  | trunc a n =>
    exact ite_raise_givesByRule (fun _ => Iff.rfl) fun _ hcauses => answer_computes hcauses ⟨_, rfl, V_fxTrunc a _⟩
  | align a => exact answer_computes (fun _ => id) (computes_align a)
  | cmp a b => exact answer_computes (fun _ => id) (computes_cmp a b)
  | eq a b => exact answer_computes (fun _ => id) (fxEq_eq a b ▸ givesTruth_flagOf _)
  | ne a b => exact answer_computes (fun _ => id) (fxNe_eq a b ▸ givesTruth_flagOf _)
  | gt a b => exact answer_computes (fun _ => id) (fxGt_eq a b ▸ givesTruth_flagOf _)
  | ge a b => exact answer_computes (fun _ => id) (fxGe_eq a b ▸ givesTruth_flagOf _)
  | lt a b => exact answer_computes (fun _ => id) (fxLt_eq a b ▸ givesTruth_flagOf _)
  | le a b => exact answer_computes (fun _ => id) (fxLe_eq a b ▸ givesTruth_flagOf _)

/-! ### The trace and the outputs -/

theorem meetsRule_of_exec {i : Instr} {s : State} {resp : Response} (h : exec i s = .next (respond i resp s)) :
    meetsRule i resp :=
  exec_givesByRule i s resp h

/-- Settles O17: the one pair a step adds is of an instruction that a command carried, with the response of its rule. -/
theorem stepKeepsTraceToItsRules : Obligations.StepKeepsTraceToItsRules := by
  intro s t hs h
  rcases step_next_cases h with ⟨-, rfl⟩ | ⟨c, rest, i, resp, -, hdecode, hexec, rfl⟩
  · exact hs
  · intro p hp
    rw [respond_trace, List.mem_append, List.mem_singleton] at hp
    rcases hp with hold | rfl
    · exact hs p hold
    · exact ⟨wellFormed_of_decode hdecode, meetsRule_of_exec hexec⟩

/-- The response is an OK response with the outputs that the map of operation codes lists for `i` (R64, R67). -/
def carriesListed (i : Instr) (resp : Response) : Prop :=
  resp.status = 0 ∧ resp.r.isSome = listsValue i ∧ resp.c.isSome = listsFlag i ∧ resp.s.isSome = listsScalar i

theorem carriesListed_of_givesValue {i : Instr} {resp : Response} {v : Nat} (h : givesValue resp v)
    (hr : listsValue i = true) (hc : listsFlag i = false) (hs : listsScalar i = false) : carriesListed i resp := by
  obtain ⟨r, rfl, -⟩ := h
  exact ⟨rfl, hr.symm, hc.symm, hs.symm⟩

theorem carriesListed_of_givesValueFlag {i : Instr} {resp : Response} {v c : Nat} (h : givesValueFlag resp v c)
    (hr : listsValue i = true) (hc : listsFlag i = true) (hs : listsScalar i = false) : carriesListed i resp := by
  obtain ⟨r, f, rfl, -⟩ := h
  exact ⟨rfl, hr.symm, hc.symm, hs.symm⟩

theorem carriesListed_of_givesTruth {i : Instr} {resp : Response} {p : Prop} (h : givesTruth resp p)
    (hr : listsValue i = false) (hc : listsFlag i = true) (hs : listsScalar i = false) : carriesListed i resp := by
  obtain ⟨hyes, hno⟩ := h
  by_cases hp : p
  · rw [hyes hp]
    exact ⟨rfl, hr.symm, hc.symm, hs.symm⟩
  · rw [hno hp]
    exact ⟨rfl, hr.symm, hc.symm, hs.symm⟩

/-- The closed form of each operation fixes which outputs there are. -/
theorem carriesListed_of_computes {i : Instr} {resp : Response} (h : computes i resp) : carriesListed i resp := by
  cases i with
  | load => subst h; exact ⟨rfl, rfl, rfl, rfl⟩
  | low64 => subst h; exact ⟨rfl, rfl, rfl, rfl⟩
  | loadv => exact carriesListed_of_givesValue h.2 rfl rfl rfl
  | fromint | fromf64 | not | div | ssl | ssr | lsl | lsr | asr | trunc =>
    exact carriesListed_of_givesValue h rfl rfl rfl
  | add | sub | ainv | mul => exact carriesListed_of_givesValueFlag h rfl rfl rfl
  | msb | eq | ne | gt | ge | lt | le => exact carriesListed_of_givesTruth h rfl rfl rfl
  | align =>
    obtain ⟨r, rfl, -⟩ := h
    exact ⟨rfl, rfl, rfl, rfl⟩
  | cmp a b =>
    obtain ⟨hlt, heq, hgt⟩ := h
    rcases Nat.lt_trichotomy a.V b.V with hab | hab | hab
    · rw [hlt hab]; exact ⟨rfl, rfl, rfl, rfl⟩
    · rw [heq hab]; exact ⟨rfl, rfl, rfl, rfl⟩
    · rw [hgt hab]; exact ⟨rfl, rfl, rfl, rfl⟩

theorem status_fault_ne_zero (f : Fault) : (Response.fault f).status ≠ 0 := by
  cases f <;> decide

/-- Settles O14: a response meets its rule, which lists its outputs or makes it a fault; a filler fills what is left. -/
theorem responsesCarryListedOutputs : Obligations.ResponsesCarryListedOutputs := by
  intro i s resp u h
  refine ⟨fun hok => ?_, fun hnot => ?_, fun hr => ?_, fun hc => ?_, fun hs => ?_⟩
  · rcases meetsRule_of_exec h with ⟨f, -, rfl⟩ | ⟨-, hcomputes⟩
    · exact absurd hok (status_fault_ne_zero f)
    · exact (carriesListed_of_computes hcomputes).2
  · rcases meetsRule_of_exec h with ⟨f, -, rfl⟩ | ⟨-, hcomputes⟩
    · exact ⟨rfl, rfl, rfl⟩
    · exact absurd (carriesListed_of_computes hcomputes).1 hnot
  · rw [responseWord_value, hr, Option.map_none, Option.getD_none]
  · rw [responseWord_flag, hc, Option.getD_none]
  · rw [responseWord_scalar, hs, Option.getD_none]

end Sys2Proof.Proofs.Rules

/-! ## Construction, conversion and queries: LOAD to LOW64 (R101 to R107) -/

namespace Sys2Proof.Proofs.Construct

open Sys2Proof.Machine Sys2Proof.Safety Sys2Proof.Proofs.ClosedForms

/-- What a command of a known operation code decodes to is read off with that code in its place. -/
theorem decode_of_op {c : Command} {op : BitVec 5} {result : Except DecodeError Instr} (hop : c.op = op)
    (hresult : decode { c with op := op } = result) : decode c = result := by
  subst hop
  exact hresult

/-! ### LOADV (R102) -/

theorem toNat_lowLimb_of_lt {t : Nat} (h : t < 2 ^ 28) : (lowLimb t).toNat = t :=
  (BitVec.toNat_ofNat t 28).trans (Nat.mod_eq_of_lt h)

/-- With a good offset the range of the words decides. -/
theorem exec_loadv_of_goodOffset {n : Int} {vec : List VecWord} (hn : 0 ≤ n) (hlen : n + 5 ≤ (vec.length : Int))
    (s : State) : exec (.loadv n vec) s =
      if limbsFit n vec then answer (.loadv n vec) (.value (vecValue vec n)) s else .refused .limbOutOfRange :=
  if_neg (badOffset_iff.not.mpr (by omega))

/-- Settles O26: the offset is tested before the words, and a word that fits its limb is the limb. -/
theorem loadvReadsFiveWords : Obligations.LoadvReadsFiveWords := by
  refine ⟨fun c hop => decode_of_op hop rfl, fun n vec s => ⟨fun hbad => ?_, fun hn hlen hfit => ?_,
    fun hn hlen hunfit => ?_⟩⟩
  · exact if_pos (badOffset_iff.mpr hbad)
  · refine ⟨vecValue vec n, ?_, ?_⟩
    · rw [exec_loadv_of_goodOffset hn hlen, if_pos (limbsFit_iff.mpr hfit), answer]
    · obtain ⟨hlow, htop⟩ := hfit
      exact ⟨toNat_lowLimb_of_lt (hlow 0 (by decide)), toNat_lowLimb_of_lt (hlow 1 (by decide)),
        toNat_lowLimb_of_lt (hlow 2 (by decide)), toNat_lowLimb_of_lt (hlow 3 (by decide)),
        (BitVec.toNat_ofNat _ 1).trans (Nat.mod_eq_of_lt htop)⟩
  · rw [exec_loadv_of_goodOffset hn hlen, if_neg (limbsFit_iff.not.mpr hunfit)]

/-! ### FROMF64 (R104) -/

theorem binary64_nonneg {f : Scalar} (h : ¬ outsideRange f) : 0 ≤ binary64 f :=
  not_lt.mp fun hneg => h (.inr (.inl hneg))

/-- Settles O28: the machine's test for Overflow is that of the number, and inside the range the floor is no negative
integer. -/
theorem fromf64TruncatesNumber : Obligations.Fromf64TruncatesNumber := by
  refine ⟨fun c hop => decode_of_op hop rfl, fun f s => ⟨fun hout => ?_, fun hin => ?_⟩⟩
  · exact if_pos (f64Outside_iff.mpr hout)
  · have hfloor : 0 ≤ ⌊binary64 f * 2 ^ 112⌋ :=
      Int.floor_nonneg.mpr (mul_nonneg (binary64_nonneg hin) (by positivity))
    refine ⟨fxFromF64 f, if_neg (f64Outside_iff.not.mpr hin), ?_⟩
    rw [V_fxFromF64_eq_floor hin, Int.toNat_of_nonneg hfloor]

/-! ### MSB and LOW64 (R106, R107) -/

theorem one_le_val_iff {a : Value} : 1 ≤ a.val ↔ 2 ^ 112 ≤ a.V := by
  rw [Value.val, one_le_div (by positivity)]
  exact_mod_cast Iff.rfl

theorem w4_eq_one_iff {a : Value} : a.w4 = 1 ↔ 2 ^ 112 ≤ a.V := by
  rw [← Value.msb, msb_eq_flagOf, flagOf_eq_one, decide_eq_true_eq]

/-- Settles O29: both sides say that the integer of the value is 2^112 or more. -/
theorem msbTellsAtLeastOne : Obligations.MsbTellsAtLeastOne :=
  ⟨fun _ hop => decode_of_op hop rfl, fun _ _ => ⟨rfl, w4_eq_one_iff.trans one_le_val_iff.symm⟩⟩

/-- Settles O30: the limbs that LOW64 puts together are the low bits of the integer. -/
theorem low64IsLowBits : Obligations.Low64IsLowBits := by
  refine ⟨fun c hop => decode_of_op hop rfl, fun a s => ⟨fxLow64 a, rfl, ?_⟩⟩
  rw [fxLow64_eq, BitVec.toNat_ofNat, Nat.mod_mod]

/-! ### LOAD and FROMINT (R101, R103) -/

/-- Settles O25: LOAD answers its operand as it stands. -/
theorem loadKeepsLimbs : Obligations.LoadKeepsLimbs :=
  ⟨fun _ hop => decode_of_op hop rfl, fun _ _ => rfl⟩

/-- Settles O27: the two legal integers come first, and every other one raises. -/
theorem fromintZeroAndOne : Obligations.FromintZeroAndOne := by
  refine ⟨fun c hop => decode_of_op hop rfl, fun s => ⟨rfl, rfl, fun n h0 h1 => ?_⟩⟩
  exact (if_neg h0).trans (if_neg h1)

end Sys2Proof.Proofs.Construct

/-! ## Addition, complement, negation, subtraction: ADD, NOT, AINV, SUB (R121 to R126), and MUL's commutation (R144) -/

namespace Sys2Proof.Proofs.AddSub

open Sys2Proof.Machine Sys2Proof.Safety Sys2Proof.Proofs.Scope Sys2Proof.Proofs.ClosedForms Sys2Proof.Proofs.Construct

/-! ### Reading the outputs -/

/-- A flag whose integer is the truth value of `p` is 1 exactly when `p` holds (R24). -/
theorem eq_one_iff_of_toNat {c : Bit} {p : Prop} [Decidable p] (h : c.toNat = if p then 1 else 0) : c = 1 ↔ p := by
  rw [← BitVec.toNat_inj, h]
  by_cases hp : p <;> simp [hp]

/-- A value and a flag are determined by their integers. -/
theorem valueFlag_ext {x y : Value × Bit} (hV : x.1.V = y.1.V) (hc : x.2.toNat = y.2.toNat) : x = y :=
  Prod.ext (Value.V_inj.mp hV) (BitVec.eq_of_toNat_eq hc)

theorem responseTo_add (a b : Value) :
    responseTo (.add a b) = some (.valueFlag (fxAdd a b).1 (fxAdd a b).2) :=
  responseTo_of_exec_next fun _ => rfl

theorem responseTo_sub (a b : Value) :
    responseTo (.sub a b) = some (.valueFlag (fxSub a b).1 (fxSub a b).2) :=
  responseTo_of_exec_next fun _ => rfl

theorem responseTo_mul (a b : Value) :
    responseTo (.mul a b) = some (.valueFlag (fxMul a b).1 (fxMul a b).2) :=
  responseTo_of_exec_next fun _ => rfl

/-! ### The closed forms (R121 to R124) -/

/-- Settles O31: the limb-wise adder is the adder of the integers. -/
theorem addWrapsWithCarry : Obligations.AddWrapsWithCarry :=
  ⟨fun _ hop => decode_of_op hop rfl, fun a b _ => ⟨_, _, rfl, V_fxAdd a b⟩⟩

/-- The complement to `2^113 - 1` on the integers is the complement of each of the 113 bits. -/
theorem bit_fxNot (a : Value) {i : Nat} (hi : i < 113) : (fxNot a).bit i = !a.bit i := by
  rw [Value.bit, V_fxNot, Nat.sub_sub, Nat.add_comm 1, Nat.testBit_two_pow_sub_succ a.V_lt, decide_eq_true hi,
    Bool.true_and, Value.bit]

/-- Settles O32: complementing the limbs complements the integer, and so its bits. -/
theorem notComplementsAllBits : Obligations.NotComplementsAllBits :=
  ⟨fun _ hop => decode_of_op hop rfl, fun a _ => ⟨_, rfl, V_fxNot a, fun _ => bit_fxNot a⟩⟩

/-- Settles O33: adding `Ulp` to the complement carries out of `Zero`'s complement, all ones, alone. -/
theorem ainvNegatesWithCarry : Obligations.AinvNegatesWithCarry := by
  refine ⟨fun c hop => decode_of_op hop rfl, fun a s => ⟨_, _, rfl, ?_⟩⟩
  obtain ⟨hV, hcarry⟩ := V_fxAInv a
  exact ⟨hV, eq_one_iff_of_toNat hcarry⟩

/-- The difference as an integer: the natural number that R124's modulus leaves is the remainder of `V(a) - V(b)`. -/
theorem V_fxSub_int (a b : Value) : ((fxSub a b).1.V : ℤ) = ((a.V : ℤ) - b.V) % 2 ^ 113 := by
  have hb := b.V_lt
  rw [(V_fxSub a b).1]
  omega

/-- Settles O34: the adder given the negated subtrahend subtracts, and the borrow is the comparator's. -/
theorem subWrapsWithBorrow : Obligations.SubWrapsWithBorrow :=
  ⟨fun _ hop => decode_of_op hop rfl,
    fun a b _ => ⟨_, _, rfl, V_fxSub_int a b, eq_one_iff_of_toNat (V_fxSub a b).2⟩⟩

/-! ### The laws (R126, R144) -/

/-- The difference and the subtrahend make up the minuend, and 2^113 more exactly where the subtraction borrowed. -/
theorem V_fxSub_add (a b : Value) : (fxSub a b).1.V + b.V = a.V + 2 ^ 113 * (fxSub a b).2.toNat := by
  have ha := a.V_lt
  have hb := b.V_lt
  rw [(V_fxSub a b).1, (V_fxSub a b).2]
  split_ifs <;> omega

/-- Adding the subtrahend back gives the minuend, and its carry is the borrow. -/
theorem fxAdd_fxSub (a b : Value) : fxAdd (fxSub a b).1 b = (a, (fxSub a b).2) := by
  obtain ⟨hV, hcarry⟩ := V_fxAdd (fxSub a b).1 b
  rw [V_fxSub_add, Nat.add_mul_mod_self_left, Nat.mod_eq_of_lt a.V_lt] at hV
  rw [V_fxSub_add, Nat.add_mul_div_left _ _ (by positivity), Nat.div_eq_of_lt a.V_lt, Nat.zero_add] at hcarry
  exact valueFlag_ext hV hcarry

/-- Settles O36: the outputs of SUB, put back into the adder, give the minuend and the borrow. -/
theorem subThenAddRestores : Obligations.SubThenAddRestores := by
  intro a b d c h
  rw [responseTo_sub, Option.some.injEq, Response.valueFlag.injEq] at h
  obtain ⟨rfl, rfl⟩ := h
  rw [responseTo_add, fxAdd_fxSub]

theorem fxAdd_comm (a b : Value) : fxAdd a b = fxAdd b a :=
  valueFlag_ext (by rw [(V_fxAdd a b).1, (V_fxAdd b a).1, Nat.add_comm])
    (by rw [(V_fxAdd a b).2, (V_fxAdd b a).2, Nat.add_comm])

theorem fxMul_comm (a b : Value) : fxMul a b = fxMul b a :=
  valueFlag_ext (by rw [(V_fxMul a b).1, (V_fxMul b a).1, Nat.mul_comm a.V])
    (by rw [(V_fxMul a b).2, (V_fxMul b a).2, Nat.mul_comm a.V])

/-- Settles O37: both closed forms are symmetric in the two integers, and they fix both outputs. -/
theorem addAndMulCommute : Obligations.AddAndMulCommute := fun a b =>
  ⟨by rw [responseTo_add, responseTo_add, fxAdd_comm], by rw [responseTo_mul, responseTo_mul, fxMul_comm]⟩

end Sys2Proof.Proofs.AddSub

/-! ## Multiplication: MUL (R140 to R144) -/

namespace Sys2Proof.Proofs.Multiply

open Sys2Proof.Machine Sys2Proof.Safety Sys2Proof.Proofs.Scope Sys2Proof.Proofs.ClosedForms Sys2Proof.Proofs.Construct
open Sys2Proof.Proofs.AddSub

/-! ### The closed form (R141) -/

/-- Settles O38: the kept positions of the normalised convolution are the product without its low 112 bits. -/
theorem mulTruncatesProduct : Obligations.MulTruncatesProduct :=
  ⟨fun _ hop => decode_of_op hop rfl, fun a b _ => ⟨_, _, rfl, V_fxMul a b⟩⟩

/-! ### The bounds of the accumulators (R142, R143) -/

theorem limb_mul_limb_le (x y : Limb) : x.toNat * y.toNat ≤ 0xFFFFFFF * 0xFFFFFFF :=
  Nat.mul_le_mul (Nat.le_sub_one_of_lt x.isLt) (Nat.le_sub_one_of_lt y.isLt)

theorem limb_mul_bit_le (x : Limb) (y : Bit) : x.toNat * y.toNat ≤ 0xFFFFFFF :=
  Nat.mul_le_mul (Nat.le_sub_one_of_lt x.isLt) (Nat.le_sub_one_of_lt y.isLt)

theorem bit_mul_limb_le (x : Bit) (y : Limb) : x.toNat * y.toNat ≤ 0xFFFFFFF :=
  Nat.mul_comm y.toNat x.toNat ▸ limb_mul_bit_le y x

theorem bit_mul_bit_le (x y : Bit) : x.toNat * y.toNat ≤ 1 :=
  Nat.mul_le_mul (Nat.le_sub_one_of_lt x.isLt) (Nat.le_sub_one_of_lt y.isLt)

/-- Position 3, four products of whole limbs, has the largest bound. Position 4 sums five products, but two of them have
a single bit as a factor (R142). -/
theorem convolve_le (a b : Value) : ∀ acc ∈ convolve a b, acc ≤ 4 * (0xFFFFFFF * 0xFFFFFFF) := by
  simp only [convolve, List.forall_mem_cons]
  refine ⟨?p0, ?p1, ?p2, ?p3, ?p4, ?p5, ?p6, ?p7, ?p8, nofun⟩
  case p0 => linarith [limb_mul_limb_le a.w0 b.w0]
  case p1 => linarith [limb_mul_limb_le a.w0 b.w1, limb_mul_limb_le a.w1 b.w0]
  case p2 => linarith [limb_mul_limb_le a.w0 b.w2, limb_mul_limb_le a.w1 b.w1, limb_mul_limb_le a.w2 b.w0]
  case p3 =>
    linarith [limb_mul_limb_le a.w0 b.w3, limb_mul_limb_le a.w1 b.w2, limb_mul_limb_le a.w2 b.w1,
      limb_mul_limb_le a.w3 b.w0]
  case p4 =>
    linarith [limb_mul_bit_le a.w0 b.w4, limb_mul_limb_le a.w1 b.w3, limb_mul_limb_le a.w2 b.w2,
      limb_mul_limb_le a.w3 b.w1, bit_mul_limb_le a.w4 b.w0]
  case p5 =>
    linarith [limb_mul_bit_le a.w1 b.w4, limb_mul_limb_le a.w2 b.w3, limb_mul_limb_le a.w3 b.w2,
      bit_mul_limb_le a.w4 b.w1]
  case p6 => linarith [limb_mul_bit_le a.w2 b.w4, limb_mul_limb_le a.w3 b.w3, bit_mul_limb_le a.w4 b.w2]
  case p7 => linarith [limb_mul_bit_le a.w3 b.w4, bit_mul_limb_le a.w4 b.w3]
  case p8 => linarith [bit_mul_bit_le a.w4 b.w4]

/-- The top position is what is left of a product below 2^226 above 224 bits (R143). -/
theorem toNat_normalise_convolve_top_le (a b : Value) : ((normalise 0 (convolve a b)).getD 8 0).toNat ≤ 3 := by
  have hlt : a.V * b.V < 2 ^ 113 * 2 ^ 113 := Nat.mul_lt_mul'' a.V_lt b.V_lt
  rw [toNat_normalise_convolve a b 8 (by decide)]
  omega

/-- Settles O39: no position exceeds the four products of whole limbs of position 3. -/
theorem mulAccumulatorsFit : Obligations.MulAccumulatorsFit :=
  fun a b => ⟨convolve_le a b, toNat_normalise_convolve_top_le a b⟩

/-! ### Multiplication by the constants (R144) -/

/-- A truncated product that is the integer of a value is answered as that value, without a carry. -/
theorem fxMul_eq_of_V {a b r : Value} (h : a.V * b.V / 2 ^ 112 = r.V) : fxMul a b = (r, 0) := by
  obtain ⟨hV, hcarry⟩ := V_fxMul a b
  rw [h, Nat.mod_eq_of_lt r.V_lt] at hV
  rw [h, Nat.div_eq_of_lt r.V_lt] at hcarry
  exact valueFlag_ext hV hcarry

theorem fxMul_one (x : Value) : fxMul x Value.one = (x, 0) :=
  fxMul_eq_of_V (by rw [Value.V_one, Nat.mul_div_cancel _ (by positivity)])

theorem fxMul_zero (x : Value) : fxMul x Value.zero = (Value.zero, 0) :=
  fxMul_eq_of_V (by rw [Value.V_zero, Nat.mul_zero, Nat.zero_div])

theorem fxMul_half (x : Value) : fxMul x Value.half = (fxLsr x 1, 0) :=
  fxMul_eq_of_V (by rw [Value.V_half, V_fxLsr]; omega)

/-- Settles O40: the products with the constants, each by its integer. -/
theorem mulByConstants : Obligations.MulByConstants := by
  refine fun x => ⟨?one, ?zero, fxLsr x 1, ?half, responseTo_of_exec_next fun _ => rfl⟩
  case one => rw [responseTo_mul, fxMul_one]
  case zero => rw [responseTo_mul, fxMul_zero]
  case half => rw [responseTo_mul, fxMul_half]

/-! ### The error of the truncation (R144) -/

/-- The outputs of MUL and the 112 bits it drops make up the exact product. -/
theorem V_fxMul_add (a b : Value) :
    2 ^ 112 * ((fxMul a b).1.V + 2 ^ 113 * (fxMul a b).2.toNat) + a.V * b.V % 2 ^ 112 = a.V * b.V := by
  rw [(V_fxMul a b).1, (V_fxMul a b).2, Nat.mod_add_div, Nat.div_add_mod]

/-- What MUL falls short of the exact product is the number of the 112 bits it drops. -/
theorem val_mul_sub_fxMul (a b : Value) :
    a.val * b.val - ((fxMul a b).1.val + 2 * ((fxMul a b).2.toNat : ℚ)) =
      ((a.V * b.V % 2 ^ 112 : ℕ) : ℚ) / 2 ^ 224 := by
  have h := congrArg (Nat.cast (R := ℚ)) (V_fxMul_add a b)
  simp only [Nat.cast_add, Nat.cast_mul, Nat.cast_pow, Nat.cast_ofNat] at h
  simp only [Value.val]
  linear_combination -h / 2 ^ 224

/-- Settles O41: the 112 bits dropped are a number of 0 or more and below 2^112. -/
theorem mulErrorBound : Obligations.MulErrorBound := by
  intro a b r c h
  rw [responseTo_mul, Option.some.injEq, Response.valueFlag.injEq] at h
  obtain ⟨rfl, rfl⟩ := h
  have hdropped : ((a.V * b.V % 2 ^ 112 : ℕ) : ℚ) < 2 ^ 112 := by
    exact_mod_cast Nat.mod_lt (a.V * b.V) (by positivity)
  rw [val_mul_sub_fxMul]
  refine ⟨by positivity, ?_⟩
  calc ((a.V * b.V % 2 ^ 112 : ℕ) : ℚ) / 2 ^ 224 < 2 ^ 112 / 2 ^ 224 := by gcongr
    _ = 1 / 2 ^ 112 := by norm_num

end Sys2Proof.Proofs.Multiply

/-! ## Division: DIV (R150 to R155) -/

namespace Sys2Proof.Proofs.Divide

open Sys2Proof.Machine Sys2Proof.Safety Sys2Proof.Proofs.ClosedForms Sys2Proof.Proofs.Construct

/-! ### The operation (R151) -/

theorem exec_div_of_ne_zero {b : Value} (hb : b ≠ Value.zero) (a : Value) (s : State) :
    exec (.div a b) s = .next (respond (.div a b) (.value (fxDiv a b)) s) :=
  if_neg (fxEq_zero_eq_one.not.mpr hb)

theorem exec_div_zero (a : Value) (s : State) :
    exec (.div a Value.zero) s = .next (respond (.div a Value.zero) (.fault .divisionByZero) s) := by
  rw [exec, execDiv, if_pos (fxEq_zero_eq_one.mpr rfl), raise, answer]

/-- Settles O42: the zero test comes first, and the loop on values is the loop on their integers. -/
theorem divRunsIntegerLoop : Obligations.DivRunsIntegerLoop :=
  ⟨fun _ hop => decode_of_op hop rfl, exec_div_zero,
    fun a b s hb => ⟨_, exec_div_of_ne_zero hb a s, V_fxDiv a b⟩⟩

/-! ### The aligned integers (R178) -/

theorem V_ne_zero_of_ne {x : Value} (hx : x ≠ Value.zero) : x.V ≠ 0 :=
  fun h => hx (Value.V_inj.mp (h.trans Value.V_zero.symm))

theorem aligned_V_lt (a : Value) : aligned a.V < 2 ^ 113 :=
  (fxAlign_eq a).2 ▸ (fxAlign a).1.V_lt

theorem le_aligned_V {b : Value} (hb : b ≠ Value.zero) : 2 ^ 112 ≤ aligned b.V := by
  obtain ⟨-, -, -, hmsb⟩ := fxAlign_spec b
  rw [← (fxAlign_eq b).2]
  exact hmsb (V_ne_zero_of_ne hb)

theorem aligned_V_pos {b : Value} (hb : b ≠ Value.zero) : 0 < aligned b.V :=
  (Nat.two_pow_pos 112).trans_le (le_aligned_V hb)

/-- Rescaling an aligned integer moves it back by its own count and up by the other, modulo 2^113 (R154). -/
theorem divScale_aligned_V (a : Value) (t : Nat) :
    divScale (aligned a.V) (alignShift a.V) t = a.V * 2 ^ t % 2 ^ 113 := by
  have hlt := aligned_V_lt a
  rw [divScale]
  split_ifs with h
  · have hsplit : aligned a.V = a.V * 2 ^ t * 2 ^ (alignShift a.V - t) := by
      rw [aligned, Nat.mul_assoc, ← pow_add, Nat.add_sub_cancel' h]
    have hle : a.V * 2 ^ t ≤ aligned a.V := hsplit ▸ Nat.le_mul_of_pos_right _ (by positivity)
    rw [hsplit, Nat.mul_div_cancel _ (by positivity), Nat.mod_eq_of_lt (hle.trans_lt hlt)]
  · rw [aligned, Nat.mul_assoc, ← pow_add, Nat.add_sub_cancel' (Nat.le_of_not_le h)]

/-! ### The loop without a lossy iteration (R153) -/

/-- What an iteration passes on is its remainder, doubled and cut to 113 bits. -/
theorem divIter_iterate_succ_fst (A B k : Nat) :
    ((divIter B)^[k + 1] (A, 0)).1 = 2 * divRemainder A B k % 2 ^ 113 := by
  rw [Function.iterate_succ_apply', divIter, divRemainder]
  split_ifs <;> rfl

/-- An iteration appends the answer of its comparison to the quotient. -/
theorem divIter_iterate_succ_snd (A B k : Nat) :
    ((divIter B)^[k + 1] (A, 0)).2 =
      2 * ((divIter B)^[k] (A, 0)).2 + if B ≤ ((divIter B)^[k] (A, 0)).1 then 1 else 0 := by
  rw [Function.iterate_succ_apply', divIter]
  split_ifs <;> rfl

/-- After `k` iterations the bits of the quotient and the running dividend, which is below twice the divisor, still make
up the dividend. -/
def QuotientSoFar (A B k : Nat) (AQ : Nat × Nat) : Prop := 2 * AQ.2 * B + AQ.1 = A * 2 ^ k ∧ AQ.1 < 2 * B

/-- Doubling cuts nothing off a remainder below 2^112, so the loop keeps the sum. -/
theorem divIter_iterate_quotientSoFar {A B : Nat} (hA : A < 2 * B) (k : Nat)
    (hlossless : ∀ i < k, divRemainder A B i < 2 ^ 112) : QuotientSoFar A B k ((divIter B)^[k] (A, 0)) := by
  induction k with
  | zero => exact ⟨by simp, hA⟩
  | succ k ih =>
    obtain ⟨hsum, hlt⟩ := ih fun i hi => hlossless i (Nat.lt_succ_of_lt hi)
    have hrem := hlossless k (Nat.lt_succ_self k)
    rw [QuotientSoFar, divIter_iterate_succ_fst, divIter_iterate_succ_snd, Nat.mod_eq_of_lt (by omega), pow_succ]
    rw [divRemainder]
    generalize (divIter B)^[k] (A, 0) = AQ at *
    split_ifs with hle
    · have hsub := Nat.sub_add_cancel hle
      exact ⟨by linarith, by omega⟩
    · exact ⟨by linarith, by omega⟩

/-- The comparison of the last iteration gives the last bit, whatever its shift then discards. -/
theorem divQuotient_of_noLossyIteration {A B : Nat} (hA : A < 2 * B) (h : noLossyIteration A B) :
    divQuotient A B = A * 2 ^ 112 / B := by
  obtain ⟨hsum, hlt⟩ := divIter_iterate_quotientSoFar hA 112 h
  rw [divQuotient, divIter_iterate_succ_snd]
  generalize (divIter B)^[112] (A, 0) = AQ at *
  refine (Nat.div_eq_of_lt_le ?_ ?_).symm
  · split_ifs <;> linarith
  · split_ifs <;> linarith

/-- Settles O43: an aligned dividend is below twice an aligned divisor, so the loop is restoring division. -/
theorem divExactWithoutLossyIteration : Obligations.DivExactWithoutLossyIteration := by
  intro a b s hb hlossless
  have hA : aligned a.V < 2 * aligned b.V := by
    have := aligned_V_lt a
    have := le_aligned_V hb
    omega
  exact ⟨_, exec_div_of_ne_zero hb a s, by rw [V_fxDiv, divQuotient_of_noLossyIteration hA hlossless]⟩

/-! ### Powers of two (R154) -/

theorem divIter_iterate_fst_lt {A : Nat} (hA : A < 2 ^ 113) (B k : Nat) : ((divIter B)^[k] (A, 0)).1 < 2 ^ 113 := by
  cases k with
  | zero => exact hA
  | succ k =>
    rw [divIter_iterate_succ_fst]
    exact Nat.mod_lt _ (by positivity)

/-- With a divisor of 2^112 every remainder is below the divisor, and so not lossy. -/
theorem noLossyIteration_two_pow {A : Nat} (hA : A < 2 ^ 113) : noLossyIteration A (2 ^ 112) := by
  intro k _
  have hr := divIter_iterate_fst_lt hA (2 ^ 112) k
  rw [divRemainder]
  split_ifs <;> omega

theorem alignShift_two_pow {j : Nat} (hj : j ≤ 112) : alignShift (2 ^ j) = 112 - j := by
  have hprod : 2 ^ j * 2 ^ (112 - j) = 2 ^ 112 := by rw [← pow_add, Nat.add_sub_cancel' hj]
  exact alignShift_eq (by positivity) (Nat.sub_le _ _) hprod.ge (hprod ▸ by decide)

theorem aligned_two_pow {j : Nat} (hj : j ≤ 112) : aligned (2 ^ j) = 2 ^ 112 := by
  rw [aligned, alignShift_two_pow hj, ← pow_add, Nat.add_sub_cancel' hj]

/-- Settles O44: the divisor aligns to 2^112, so the quotient is the aligned dividend, and the rescale undoes its
alignment. -/
theorem divByPowerOfTwo : Obligations.DivByPowerOfTwo := by
  intro a b j s hb
  have hj : j ≤ 112 := Nat.le_of_lt_succ ((Nat.pow_lt_pow_iff_right (by decide)).mp (hb ▸ b.V_lt))
  have hne : b ≠ Value.zero := by
    rintro rfl
    exact absurd hb (by rw [Value.V_zero]; positivity)
  obtain ⟨r, hexec, hV⟩ := divExactWithoutLossyIteration a b s hne
    (by rw [hb, aligned_two_pow hj]; exact noLossyIteration_two_pow (aligned_V_lt a))
  refine ⟨r, hexec, ?_⟩
  rw [hV, hb, aligned_two_pow hj, alignShift_two_pow hj, Nat.mul_div_cancel _ (by positivity), divScale_aligned_V]

/-! ### A value by itself, and `Zero` (R154) -/

/-- Once nothing is left of the dividend, the quotient takes only zeros. -/
theorem divIter_iterate_zero {B : Nat} (hB : 0 < B) (Q k : Nat) : (divIter B)^[k] (0, Q) = (0, Q * 2 ^ k) := by
  induction k with
  | zero => simp
  | succ k ih =>
    rw [Function.iterate_succ_apply', ih, divIter, if_neg (by omega), Nat.mul_zero, Nat.zero_mod, pow_succ',
      Nat.mul_left_comm Q]

theorem divQuotient_zero {B : Nat} (hB : 0 < B) : divQuotient 0 B = 0 := by
  rw [divQuotient, divIter_iterate_zero hB, Nat.zero_mul]

/-- The first iteration takes the whole dividend. -/
theorem divQuotient_self {B : Nat} (hB : 0 < B) : divQuotient B B = 2 ^ 112 := by
  have hfirst : divIter B (B, 0) = (0, 1) := by
    rw [divIter, if_pos le_rfl, Nat.sub_self, Nat.mul_zero, Nat.zero_mod]
  rw [divQuotient, Function.iterate_succ_apply, hfirst, divIter_iterate_zero hB, Nat.one_mul]

theorem divScale_self (Q shift : Nat) : divScale Q shift shift = Q := by
  rw [divScale, if_pos le_rfl, Nat.sub_self, pow_zero, Nat.div_one]

theorem divScale_zero (aShift bShift : Nat) : divScale 0 aShift bShift = 0 := by
  rw [divScale, Nat.zero_div, Nat.zero_mul, Nat.zero_mod, ite_self]

theorem fxDiv_self {x : Value} (hx : x ≠ Value.zero) : fxDiv x x = Value.one := by
  rw [← Value.V_inj, V_fxDiv, divQuotient_self (aligned_V_pos hx), divScale_self, Value.V_one]

theorem fxDiv_zero {x : Value} (hx : x ≠ Value.zero) : fxDiv Value.zero x = Value.zero := by
  rw [← Value.V_inj, V_fxDiv, Value.V_zero, aligned, Nat.zero_mul, divQuotient_zero (aligned_V_pos hx),
    divScale_zero]

/-- Settles O45: the first iteration leaves nothing of the dividend, and of `Zero` there is nothing to begin with. -/
theorem divSelfAndZero : Obligations.DivSelfAndZero := fun x s hx =>
  ⟨by rw [exec_div_of_ne_zero hx, fxDiv_self hx], by rw [exec_div_of_ne_zero hx, fxDiv_zero hx]⟩

end Sys2Proof.Proofs.Divide

/-! ## Shifts and bit operations: SSL, SSR, LSL, LSR, ASR, TRUNC, ALIGN (R170 to R179) -/

namespace Sys2Proof.Proofs.Shift

open Sys2Proof.Machine Sys2Proof.Safety Sys2Proof.Proofs.Scope Sys2Proof.Proofs.ClosedForms
open Sys2Proof.Proofs.Construct Sys2Proof.Proofs.AddSub Sys2Proof.Proofs.Divide

/-! ### The single-bit shifts (R171, R172) -/

theorem testBit_zero_eq_true_iff (cin : Bit) : cin.toNat.testBit 0 = true ↔ cin = 1 := by
  revert cin
  decide

/-- The carry-in is the parity of the shifted integer. -/
theorem bit_fxSsl_zero (a : Value) (cin : Bit) : (fxSsl a cin).bit 0 = true ↔ cin = 1 := by
  have hcin := cin.isLt
  have hparity : (2 * a.V + cin.toNat) % 2 ^ 113 % 2 = cin.toNat % 2 := by omega
  rw [Value.bit, V_fxSsl, Nat.testBit_zero, hparity, ← Nat.testBit_zero, testBit_zero_eq_true_iff]

/-- Below the cut at bit 113, each bit of the shifted integer is the bit one place lower. -/
theorem bit_fxSsl_succ (a : Value) (cin : Bit) {i : Nat} (hi : i < 112) : (fxSsl a cin).bit (i + 1) = a.bit i := by
  have hcin := cin.isLt
  have hhalf : (2 * a.V + cin.toNat) / 2 = a.V := by omega
  rw [Value.bit, V_fxSsl, Nat.testBit_mod_two_pow, decide_eq_true (by omega), Bool.true_and, Nat.testBit_succ, hhalf,
    Value.bit]

/-- Settles O46: the limbs shifted left by one are the integer doubled, with the carry-in for its parity. -/
theorem sslShiftsLeftByOne : Obligations.SslShiftsLeftByOne := by
  refine ⟨fun c hop => decode_of_op hop rfl, fun a cin s => ⟨_, rfl, V_fxSsl a cin, bit_fxSsl_zero a cin, ?_⟩⟩
  intro i hlo hhi
  obtain ⟨j, rfl⟩ := Nat.exists_eq_add_of_le' hlo
  exact bit_fxSsl_succ a cin hhi

/-- The carry-in stands above the 112 bits that the halved integer leaves. -/
theorem bit_fxSsr (a : Value) (cin : Bit) (i : Nat) :
    (fxSsr a cin).bit i = if i < 112 then a.bit (i + 1) else cin.toNat.testBit (i - 112) := by
  have hhalf : a.V / 2 < 2 ^ 112 := by
    have := a.V_lt
    omega
  rw [Value.bit, V_fxSsr, Nat.add_comm, Nat.mul_comm, Nat.testBit_two_pow_mul_add _ hhalf, Value.bit, Nat.testBit_succ]

/-- Settles O47: the limbs shifted right by one are the integer halved, with the carry-in at weight 2^112. -/
theorem ssrShiftsRightByOne : Obligations.SsrShiftsRightByOne := by
  refine ⟨fun c hop => decode_of_op hop rfl, fun a cin s => ⟨_, rfl, V_fxSsr a cin, ?_, fun i hi => ?_⟩⟩
  · rw [bit_fxSsr, if_neg (Nat.lt_irrefl 112)]
    exact testBit_zero_eq_true_iff cin
  · rw [bit_fxSsr, if_pos (Nat.lt_succ_of_le hi)]

/-! ### LSL and LSR (R174, R175) -/

theorem exec_lsl_of_pos {n : Int} (hn : 0 < n) (a : Value) (s : State) :
    exec (.lsl a n) s = .next (respond (.lsl a n) (.value (fxLsl a n.toNat)) s) :=
  if_neg (not_le.mpr hn)

theorem exec_lsr_of_nonneg {n : Int} (hn : 0 ≤ n) (a : Value) (s : State) :
    exec (.lsr a n) s = .next (respond (.lsr a n) (.value (fxLsr a n.toNat)) s) :=
  if_neg (not_lt.mpr hn)

/-- A shift by 113 or more leaves nothing below bit 113. -/
theorem fxLsl_eq_zero (a : Value) {k : Nat} (hk : 113 ≤ k) : fxLsl a k = Value.zero := by
  rw [← Value.V_inj, V_fxLsl, Value.V_zero]
  exact Nat.mod_eq_zero_of_dvd ((pow_dvd_pow 2 hk).mul_left a.V)

theorem V_lt_two_pow (a : Value) {k : Nat} (hk : 113 ≤ k) : a.V < 2 ^ k :=
  a.V_lt.trans_le (Nat.pow_le_pow_right (by decide) hk)

theorem fxLsr_zero (a : Value) : fxLsr a 0 = a := by
  rw [← Value.V_inj, V_fxLsr, pow_zero, Nat.div_one]

theorem fxLsr_eq_zero (a : Value) {k : Nat} (hk : 113 ≤ k) : fxLsr a k = Value.zero := by
  rw [← Value.V_inj, V_fxLsr, Value.V_zero, Nat.div_eq_of_lt (V_lt_two_pow a hk)]

/-- Settles O48: the count is tested first, and doubling `n` times, 113 at most, is multiplying by 2^n. -/
theorem lslShiftsLeft : Obligations.LslShiftsLeft :=
  ⟨fun _ hop => decode_of_op hop rfl, fun a n s => ⟨fun hn => if_pos hn, fun hn =>
    ⟨_, exec_lsl_of_pos hn a s, V_fxLsl a _, fun hbig => fxLsl_eq_zero a (by omega)⟩⟩⟩

/-- Settles O49: the count is tested first, and halving `n` times, 113 at most, is dividing by 2^n. -/
theorem lsrShiftsRight : Obligations.LsrShiftsRight := by
  refine ⟨fun _ hop => decode_of_op hop rfl, fun a n s => ⟨fun hn => if_pos hn, fun hn =>
    ⟨_, exec_lsr_of_nonneg hn a s, V_fxLsr a _, ?_, fun hbig => fxLsr_eq_zero a (by omega)⟩⟩⟩
  rintro rfl
  exact fxLsr_zero a

/-! ### ASR (R176) -/

theorem exec_asr_of_nonneg {n : Int} (hn : 0 ≤ n) (a : Value) (s : State) :
    exec (.asr a n) s = .next (respond (.asr a n) (.value (fxAsr a n.toNat)) s) :=
  if_neg (not_lt.mpr hn)

/-- The original Msb fills the `k` places that a shift by `k` leaves at the top. -/
theorem V_fxAsr_msb (a : Value) (k : Nat) :
    (fxAsr a k).V = a.V / 2 ^ k + a.msb.toNat * (2 ^ 113 - 2 ^ (113 - k)) := by
  rw [V_fxAsr, msb_eq_flagOf, toNat_flagOf, ite_mul, Nat.one_mul, Nat.zero_mul]
  simp only [decide_eq_true_eq]

/-- A shift by 113 or more leaves only the fill. -/
theorem fxAsr_eq_fill (a : Value) {k : Nat} (hk : 113 ≤ k) :
    fxAsr a k = if a.msb = 1 then Value.max else Value.zero := by
  rw [← Value.V_inj, V_fxAsr, Nat.div_eq_of_lt (V_lt_two_pow a hk), Nat.zero_add, Nat.sub_eq_zero_of_le hk, pow_zero,
    apply_ite Value.V, Value.V_max, Value.V_zero]
  exact if_congr w4_eq_one_iff.symm rfl rfl

/-- Settles O50: the Msb is read once, and each of the shifts brings it in at the top. -/
theorem asrReplicatesMsb : Obligations.AsrReplicatesMsb :=
  ⟨fun _ hop => decode_of_op hop rfl, fun a n s => ⟨fun hn => if_pos hn, fun hn =>
    ⟨_, exec_asr_of_nonneg hn a s, fun _ => V_fxAsr_msb a _, fun hbig => fxAsr_eq_fill a (by omega)⟩⟩⟩

/-! ### TRUNC (R177) -/

theorem exec_trunc_of_nonneg {n : Int} (hn : 0 ≤ n) (a : Value) (s : State) :
    exec (.trunc a n) s = .next (respond (.trunc a n) (.value (fxTrunc a n.toNat)) s) :=
  if_neg (not_lt.mpr hn)

theorem fxTrunc_eq_zero (a : Value) {k : Nat} (hk : 113 ≤ k) : fxTrunc a k = Value.zero :=
  if_pos hk

/-- What TRUNC leaves is the multiple of 2^k at or below its operand. -/
theorem V_fxTrunc_eq_div_mul (a : Value) (k : Nat) : (fxTrunc a k).V = a.V / 2 ^ k * 2 ^ k := by
  rw [V_fxTrunc, Nat.div_mul_self_eq_mod_sub_self]

theorem bit_fxTrunc (a : Value) (k i : Nat) : (fxTrunc a k).bit i = (decide (k ≤ i) && a.bit i) := by
  rw [Value.bit, V_fxTrunc_eq_div_mul, Nat.testBit_mul_two_pow]
  by_cases hi : k ≤ i
  · rw [Nat.testBit_div_two_pow, Nat.sub_add_cancel hi, Value.bit]
  · rw [decide_eq_false hi, Bool.false_and, Bool.false_and]

/-- Settles O51: clearing the low bits of the boundary limb and the limbs below it clears the low bits of the integer. -/
theorem truncClearsLowBits : Obligations.TruncClearsLowBits := by
  refine ⟨fun _ hop => decode_of_op hop rfl, fun a n s => ⟨fun hn => if_pos hn, fun hn =>
    ⟨_, exec_trunc_of_nonneg hn a s, V_fxTrunc a _, fun hbig => fxTrunc_eq_zero a (by omega), fun i => ?_⟩⟩⟩
  rw [bit_fxTrunc, decide_eq_decide.mpr Int.toNat_le]

/-! ### ALIGN (R178) -/

/-- Nothing is cut off an operand that ALIGN moves up, so moving it down by the count gives it back. -/
theorem fxLsr_fxAlign (a : Value) : fxLsr (fxAlign a).1 (fxAlign a).2 = a := by
  obtain ⟨-, hV, -, -⟩ := fxAlign_spec a
  rw [← Value.V_inj, V_fxLsr, hV, Nat.mul_div_cancel _ (by positivity)]

theorem fxAlign_count {a : Value} (ha : a ≠ Value.zero) : (fxAlign a).2 = 112 - a.V.log2 := by
  rw [(fxAlign_eq a).1, alignShift, if_neg (V_ne_zero_of_ne ha)]

/-- Settles O52: the loop stops with bit 112 set, which fixes its count, or at once for `Zero`. -/
theorem alignSetsMsb : Obligations.AlignSetsMsb := by
  refine ⟨fun _ hop => decode_of_op hop rfl, fun a s => ?_⟩
  obtain ⟨hcount, hV, hzero, hmsb⟩ := fxAlign_spec a
  refine ⟨_, (fxAlign a).2, rfl, hcount, hV, fun ha => hzero (ha ▸ Value.V_zero), fun ha => ?_, ?_⟩
  · exact ⟨w4_eq_one_iff.mpr (hmsb (V_ne_zero_of_ne ha)), fxAlign_count ha⟩
  · rw [responseTo_of_exec_next (exec_lsr_of_nonneg (Int.natCast_nonneg _) _), Int.toNat_natCast, fxLsr_fxAlign]

/-! ### The laws (R179) -/

/-- Right then left puts zeros in the places of the low `k` bits, and nothing leaves at the top. -/
theorem fxLsl_fxLsr (x : Value) (k : Nat) : fxLsl (fxLsr x k) k = fxTrunc x k := by
  have hle : x.V / 2 ^ k * 2 ^ k ≤ x.V := Nat.div_mul_le_self _ _
  rw [← Value.V_inj, V_fxLsl, V_fxLsr, V_fxTrunc_eq_div_mul, Nat.mod_eq_of_lt (hle.trans_lt x.V_lt)]

/-- Left then right loses the bits that left at the top, the `k` highest. -/
theorem fxLsr_fxLsl (x : Value) {k : Nat} (hk : k ≤ 113) :
    fxLsr (fxLsl x k) k = Value.ofV (x.V % 2 ^ (113 - k)) := by
  have hlt : x.V % 2 ^ (113 - k) < 2 ^ 113 := (Nat.mod_le _ _).trans_lt x.V_lt
  have hcut : x.V * 2 ^ k % 2 ^ 113 = x.V % 2 ^ (113 - k) * 2 ^ k := by
    rw [← Nat.mul_mod_mul_right, ← pow_add, Nat.sub_add_cancel hk]
  rw [← Value.V_inj, V_fxLsr, V_fxLsl, Value.V_ofV hlt, hcut, Nat.mul_div_cancel _ (by positivity)]

/-- Settles O53: both round trips on the values, for a count that every one of the operations accepts. -/
theorem shiftRoundTrips : Obligations.ShiftRoundTrips := by
  intro x n hpos hlt
  have hlsr := fun y => responseTo_of_exec_next (exec_lsr_of_nonneg hpos.le y)
  have hlsl := fun y => responseTo_of_exec_next (exec_lsl_of_pos hpos y)
  have htrunc := responseTo_of_exec_next (exec_trunc_of_nonneg hpos.le x)
  refine ⟨⟨_, hlsr x, ?_⟩, ⟨_, hlsl x, ?_⟩⟩
  · rw [hlsl, htrunc, fxLsl_fxLsr]
  · rw [hlsr, fxLsr_fxLsl x (by omega)]

/-- The carry-out of `x + x` is the bit that doubling pushes out of the 113. -/
theorem fxAdd_self (x : Value) : fxAdd x x = (fxSsl x 0, x.msb) := by
  obtain ⟨hV, hcarry⟩ := V_fxAdd x x
  refine valueFlag_ext ?_ ?_
  · rw [hV, V_fxSsl_zero, Nat.two_mul]
  · rw [hcarry, Value.msb, x.w4_toNat]
    omega

/-- Settles O54: the adder given one value twice doubles it, as SSL does. -/
theorem addSelfExposesDiscardedBit : Obligations.AddSelfExposesDiscardedBit :=
  fun x => ⟨_, responseTo_of_exec_next fun _ => rfl, by rw [responseTo_add, fxAdd_self]⟩

end Sys2Proof.Proofs.Shift

/-! ## Comparison: CMP, EQ, NE, GT, GE, LT, LE (R200 to R208) -/

namespace Sys2Proof.Proofs.Compare

open Sys2Proof.Machine Sys2Proof.Safety Sys2Proof.Proofs.Scope Sys2Proof.Proofs.ClosedForms
open Sys2Proof.Proofs.Rules Sys2Proof.Proofs.Construct Sys2Proof.Proofs.AddSub

/-! ### The three-way result (R200) -/

/-- Settles O55: the scalar is the one R200's rule gives, and it is read as a two's-complement number. -/
theorem cmpIsIntegerOrder : Obligations.CmpIsIntegerOrder := by
  refine ⟨fun c hop => decode_of_op hop rfl, fun a b s => ⟨orderScalar (fxCmp a b), rfl, ?_⟩⟩
  obtain ⟨hlt, heq, hgt⟩ := computes_cmp a b
  exact ⟨fun h => congrArg BitVec.toInt (Response.scalar.inj (hlt h)),
    fun h => congrArg BitVec.toInt (Response.scalar.inj (heq h)),
    fun h => congrArg BitVec.toInt (Response.scalar.inj (hgt h))⟩

/-! ### The predicates (R201 to R206) -/

theorem flagOf_decide (p : Prop) [Decidable p] : flagOf (decide p) = if p then 1 else 0 := by
  by_cases hp : p <;> simp [hp]

/-- Settles O56: the limbs are all equal exactly when the integers are. -/
theorem eqAndNeAreEquality : Obligations.EqAndNeAreEquality := by
  refine ⟨fun c hop => decode_of_op hop rfl, fun c hop => decode_of_op hop rfl,
    fun a b s => ⟨?_, ?_, Value.V_inj.symm⟩⟩
  · simp only [exec, execEq, answer, fxEq_eq, flagOf_decide, Value.V_inj]
  · simp only [exec, execNe, answer, fxNe_eq, flagOf_decide, ne_eq, ite_not, Value.V_inj]

/-- Settles O57: the limb-priority order is the order of the integers, asked about in four ways. -/
theorem orderPredicatesAreIntegerOrder : Obligations.OrderPredicatesAreIntegerOrder := by
  refine ⟨fun c hop => decode_of_op hop rfl, fun c hop => decode_of_op hop rfl,
    fun c hop => decode_of_op hop rfl, fun c hop => decode_of_op hop rfl, fun a b s => ⟨?_, ?_, ?_, ?_⟩⟩
  · rw [← flagOf_decide, ← fxGt_eq]
    rfl
  · rw [← flagOf_decide, ← fxGe_eq]
    rfl
  · rw [← flagOf_decide, ← fxLt_eq]
    rfl
  · rw [← flagOf_decide, ← fxLe_eq]
    rfl

/-! ### The laws (R207) -/

theorem toNat_fxLt_add_fxEq_add_fxGt (a b : Value) :
    (fxLt a b).toNat + (fxEq a b).toNat + (fxGt a b).toNat = 1 := by
  simp only [fxLt_eq, fxEq_eq, fxGt_eq, toNat_flagOf, decide_eq_true_eq]
  rcases Nat.lt_trichotomy a.V b.V with h | h | h
  · rw [if_pos h, if_neg h.ne, if_neg h.not_gt]
  · rw [if_neg h.not_lt, if_pos h, if_neg h.not_gt]
  · rw [if_neg h.not_gt, if_neg h.ne', if_pos h]

theorem fxGt_swap (a b : Value) : fxGt b a = fxLt a b := by
  rw [fxGt_eq, fxLt_eq]

/-- A difference of two integers below 2^113 is a multiple of 2^113 only when it is 0. -/
theorem fxSub_eq_zero_iff (a b : Value) : (fxSub a b).1 = Value.zero ↔ fxEq a b = 1 := by
  have ha := a.V_lt
  have hb := b.V_lt
  rw [← Value.V_inj, (V_fxSub a b).1, Value.V_zero, fxEq_eq, flagOf_eq_one, decide_eq_true_eq]
  omega

theorem fxGe_one (a : Value) : fxGe a Value.one = a.msb := by
  rw [fxGe_eq, Value.V_one, msb_eq_flagOf]

/-- Settles O58: the model computes GE, LE, NE and the borrow of SUB as R207 derives them; the other laws are those of
the integers. -/
theorem predicatesAgree : Obligations.PredicatesAgree := by
  intro a b
  refine ⟨fxLt a b, fxEq a b, fxGt a b, responseTo_of_exec_next fun _ => rfl, responseTo_of_exec_next fun _ => rfl,
    responseTo_of_exec_next fun _ => rfl, toNat_fxLt_add_fxEq_add_fxGt a b, responseTo_of_exec_next fun _ => rfl,
    responseTo_of_exec_next fun _ => rfl, responseTo_of_exec_next fun _ => rfl, ?_,
    ⟨(fxSub a b).1, responseTo_sub a b, fxSub_eq_zero_iff a b⟩, ?_⟩
  · rw [← fxGt_swap]
    exact responseTo_of_exec_next fun _ => rfl
  · rw [← fxGe_one]
    exact responseTo_of_exec_next fun _ => rfl

end Sys2Proof.Proofs.Compare

/-! ## The exceptions: the faults and their causes, and the refusals (R220 to R230) -/

namespace Sys2Proof.Proofs.Exceptions

open Sys2Proof.Machine Sys2Proof.Safety
open Sys2Proof.Proofs.Scope Sys2Proof.Proofs.Channel Sys2Proof.Proofs.Codes Sys2Proof.Proofs.ClosedForms
open Sys2Proof.Proofs.Rules Sys2Proof.Proofs.Construct

/-- Settles O15: the table of R221 is the definition of the port `status`. -/
theorem statusCodes : Obligations.StatusCodes :=
  ⟨fun _ => rfl, fun _ _ => rfl, fun _ _ => rfl, fun _ => rfl, fun _ => rfl, rfl, rfl, rfl⟩

/-! ### The faults (R222) -/

/-- A response that meets the rule of `i` is a fault only on a cause: a closed form gives status OK. -/
theorem causes_of_meetsRule_fault {i : Instr} {f : Fault} (h : meetsRule i (.fault f)) : causes i f := by
  rcases h with ⟨g, hcause, hfault⟩ | ⟨-, hcomputes⟩
  · rwa [Response.fault.inj hfault]
  · exact absurd (carriesListed_of_computes hcomputes).1 (status_fault_ne_zero f)

/-- The machine tests each cause of the table, and tests it before it computes. -/
theorem exec_fault_of_causes {i : Instr} {f : Fault} (h : causes i f) (s : State) :
    exec i s = .next (respond i (.fault f) s) := by
  cases i with
  | loadv n vec =>
    obtain ⟨rfl, hoffset⟩ := h
    exact if_pos (badOffset_iff.mpr hoffset)
  | fromint n =>
    obtain ⟨rfl, hzero, hone⟩ := h
    exact (if_neg hzero).trans (if_neg hone)
  | fromf64 x =>
    obtain ⟨rfl, hout⟩ := h
    exact if_pos (f64Outside_iff.mpr hout)
  | div a b =>
    obtain ⟨rfl, hb⟩ := h
    exact if_pos (fxEq_zero_eq_one.mpr hb)
  | lsl | lsr | asr | trunc =>
    obtain ⟨rfl, hn⟩ := h
    exact if_pos hn
  | load | msb | low64 | add | sub | ainv | not | mul | ssl | ssr | align | cmp | eq | ne | gt | ge | lt | le =>
    exact h.elim

/-- Settles O13: a fault response meets its rule only on a cause, and on a cause the machine raises the fault. -/
theorem faultsExactlyOnTheirCauses : Obligations.FaultsExactlyOnTheirCauses := fun _ _ s =>
  ⟨fun h => causes_of_meetsRule_fault (meetsRule_of_exec h), fun h => exec_fault_of_causes h s⟩

/-! ### The outcomes of a step (R227, R229, R230) -/

theorem step_of_reserved {s : State} {c : Command} {rest : List Command} (hpending : s.pending = c :: rest)
    (h : c.op ∈ reservedCodes) : step s = .refused (.reservedOperation c.op) := by
  obtain ⟨pending, trace⟩ := s
  subst hpending
  exact (reservedCodesSelectNothing c).2 h ⟨rest, trace⟩

theorem exec_ne_fault (i : Instr) (s : State) (f : Fault) : exec i s ≠ .fault f := by
  rcases exec_actsAlike i with ⟨resp, hnext⟩ | ⟨ρ, hrefused⟩
  · rw [hnext]
    nofun
  · rw [hrefused]
    nofun

/-- Settles O10: a step waits, refuses a reserved code or executes, and what it executes responds or is refused. -/
theorem noStepStopsOnFault : Obligations.NoStepStopsOnFault := by
  intro s f
  cases hpending : s.pending with
  | nil =>
    rw [stepWaitsForCommand s hpending]
    nofun
  | cons c rest =>
    rcases decode_total c with ⟨i, hdecode, -⟩ | ⟨hreserved, -⟩
    · rw [stepRunsPresentedCommand s c rest i hpending hdecode]
      exact exec_ne_fault i _ f
    · rw [step_of_reserved hpending hreserved]
      nofun

theorem ite_ne_refused {x y : Host.Outcome State Fault Refusal} {ρ : Refusal} (p : Prop) [Decidable p]
    (hx : x ≠ .refused ρ) (hy : y ≠ .refused ρ) : (if p then x else y) ≠ .refused ρ := by
  split
  · exact hx
  · exact hy

/-- LOADV is refused only past the test of its offset, and then only on its words (R226). -/
theorem exec_loadv_refused_iff {n : Int} {vec : List VecWord} {s : State} {ρ : Refusal} :
    exec (.loadv n vec) s = .refused ρ ↔
      0 ≤ n ∧ n + 5 ≤ (vec.length : Int) ∧ ¬ wordsInRange vec n.toNat ∧ ρ = .limbOutOfRange := by
  obtain ⟨hfaults, hanswers, hrefuses⟩ := loadvReadsFiveWords.2 n vec s
  constructor
  · intro h
    have hoffset : ¬ (n < 0 ∨ n + 5 > (vec.length : Int)) := fun hbad =>
      absurd ((hfaults hbad).symm.trans h) nofun
    obtain ⟨hn, hlen⟩ : 0 ≤ n ∧ n + 5 ≤ (vec.length : Int) := by omega
    have hunfit : ¬ wordsInRange vec n.toNat := fun hfit => by
      obtain ⟨r, hanswer, -⟩ := hanswers hn hlen hfit
      exact absurd (hanswer.symm.trans h) nofun
    exact ⟨hn, hlen, hunfit, Host.Outcome.refused.inj (h.symm.trans (hrefuses hn hlen hunfit))⟩
  · rintro ⟨hn, hlen, hunfit, rfl⟩
    exact hrefuses hn hlen hunfit

/-- LOADV is the one operation that is ever refused. -/
theorem eq_loadv_of_exec_refused {i : Instr} {s : State} {ρ : Refusal} (h : exec i s = .refused ρ) :
    ∃ n vec, i = .loadv n vec := by
  cases i with
  | loadv n vec => exact ⟨n, vec, rfl⟩
  | fromint =>
    exact absurd h (ite_ne_refused _ answer_ne_refused (ite_ne_refused _ answer_ne_refused answer_ne_refused))
  | fromf64 | div | lsl | lsr | asr | trunc =>
    exact absurd h (ite_ne_refused _ answer_ne_refused answer_ne_refused)
  | load | msb | low64 | add | sub | ainv | not | mul | ssl | ssr | align | cmp | eq | ne | gt | ge | lt | le =>
    exact absurd h answer_ne_refused

/-- LOADV comes from the code 0x02 alone, with its operands from the ports `n` and `vec` (R67). -/
theorem decode_eq_loadv_iff {c : Command} {n : Int} {vec : List VecWord} :
    decode c = .ok (.loadv n vec) ↔ c.op = 0x02 ∧ n = c.n.toInt ∧ vec = c.vec := by
  constructor
  · intro h
    have hop : c.op = 0x02 := (code_eq_of_decode h).symm
    obtain ⟨hn, hvec⟩ := Instr.loadv.inj (Except.ok.inj (h.symm.trans (loadvReadsFiveWords.1 c hop)))
    exact ⟨hop, hn, hvec⟩
  · rintro ⟨hop, rfl, rfl⟩
    exact loadvReadsFiveWords.1 c hop

/-- Settles O11: a step refuses at the decoder on a reserved code, or at the one operation that can be refused. -/
theorem exactlyTwoRefusals : Obligations.ExactlyTwoRefusals := by
  intro s ρ
  constructor
  · intro h
    cases hpending : s.pending with
    | nil => exact absurd ((stepWaitsForCommand s hpending).symm.trans h) nofun
    | cons c rest =>
      refine ⟨c, rest, rfl, ?_⟩
      rcases decode_total c with ⟨i, hdecode, -⟩ | ⟨hreserved, -⟩
      · rw [stepRunsPresentedCommand s c rest i hpending hdecode] at h
        obtain ⟨n, vec, rfl⟩ := eq_loadv_of_exec_refused h
        obtain ⟨hop, rfl, rfl⟩ := decode_eq_loadv_iff.mp hdecode
        exact .inr ⟨hop, exec_loadv_refused_iff.mp h⟩
      · exact .inl ⟨hreserved, Host.Outcome.refused.inj (h.symm.trans (step_of_reserved hpending hreserved))⟩
  · rintro ⟨c, rest, hpending, ⟨hreserved, rfl⟩ | ⟨hop, hrefused⟩⟩
    · exact step_of_reserved hpending hreserved
    · rw [stepRunsPresentedCommand s c rest _ hpending (decode_eq_loadv_iff.mpr ⟨hop, rfl, rfl⟩)]
      exact exec_loadv_refused_iff.mpr hrefused

end Sys2Proof.Proofs.Exceptions

/-! ## Reset and hazards: what reset leaves (R250), and the discarded carry of SUB's inner addition (R259) -/

namespace Sys2Proof.Proofs.ResetAndHazards

open Sys2Proof.Machine Sys2Proof.Safety Sys2Proof.Proofs.AddSub

/-! ### Reset (R250) -/

/-- Settles O1: the two fields of the state after reset. -/
theorem resetLeavesEmptyTrace : Obligations.ResetLeavesEmptyTrace :=
  ⟨reset_pending, reset_trace⟩

/-- Settles O18: the trace after reset holds no pair that could break a rule. -/
theorem resetTraceMeetsRules : Obligations.ResetTraceMeetsRules := by
  intro p hp
  rw [reset_trace] at hp
  exact absurd hp List.not_mem_nil

/-! ### The inner addition of SUB (R259) -/

/-- Below the modulus the negation of R123 has nothing to reduce, unless the operand is `Zero`. -/
theorem V_fxAInv_of_ne_zero {b : Value} (hb : b ≠ Value.zero) : (fxAInv b).1.V = 2 ^ 113 - b.V := by
  have hpos : b.V ≠ 0 := fun h => hb (Value.V_inj.mp (h.trans Value.V_zero.symm))
  rw [(V_fxAInv b).1]
  exact Nat.mod_eq_of_lt (by omega)

theorem fxAInv_zero : (fxAInv Value.zero).1 = Value.zero := by
  rw [← Value.V_inj, (V_fxAInv Value.zero).1, Value.V_zero, Nat.sub_zero, Nat.mod_self]

theorem fxAdd_zero (a : Value) : fxAdd a Value.zero = (a, 0) := by
  obtain ⟨hV, hcarry⟩ := V_fxAdd a Value.zero
  rw [Value.V_zero, Nat.add_zero] at hV hcarry
  exact valueFlag_ext (hV.trans (Nat.mod_eq_of_lt a.V_lt)) (hcarry.trans (Nat.div_eq_of_lt a.V_lt))

/-- Adding `2^113 - V(b)` reaches `2^113`, and so carries, exactly where `b` is at most `a`. -/
theorem innerCarry_of_ne_zero (a : Value) {b : Value} (hb : b ≠ Value.zero) :
    (fxAdd a (fxAInv b).1).2 = fxGe a b := by
  have ha := a.V_lt
  have hbV := b.V_lt
  rw [← BitVec.toNat_inj, (V_fxAdd _ _).2, V_fxAInv_of_ne_zero hb, fxGe_eq, toNat_flagOf]
  simp only [decide_eq_true_eq]
  split_ifs <;> omega

/-- The borrow is the comparator's LT (R124), the complement of GE. -/
theorem one_sub_borrow (a b : Value) : 1 - (fxSub a b).2 = fxGe a b := by
  rw [fxSub, fxLt_eq, fxGe_eq, one_sub_flagOf, ← decide_not, decide_eq_decide.mpr not_lt]

theorem borrow_zero (a : Value) : (fxSub a Value.zero).2 = 0 := by
  rw [fxSub, fxLt_eq, Value.V_zero, decide_eq_false a.V.not_lt_zero, flagOf_false]

/-- Settles O35: for a subtrahend other than `Zero` the carry is GE, and the borrow LT; the negation of `Zero` is `Zero`
again, so that neither the addition carries nor the comparison borrows. -/
theorem subBorrowNotFromAdder : Obligations.SubBorrowNotFromAdder := by
  refine fun a b => ⟨fun hb => ?_, ?_⟩
  · rw [innerCarry_of_ne_zero a hb, one_sub_borrow]
  · rintro rfl
    rw [fxAInv_zero, fxAdd_zero]
    exact ⟨rfl, borrow_zero a⟩

end Sys2Proof.Proofs.ResetAndHazards
